-- ==== Sys2Proof/Word.lean ====
section
/-! DEFINITION. The word types of the block (00_scope.md R7, R10, R13). -/

namespace Sys2Proof

/-- A bus address, a bus data byte, a segment mask or a one-byte operand (00_scope.md R7). -/
abbrev Byte := BitVec 8

/-- A 32-bit operand field or the VALUE of a response (30_encoding.md R62, R72). -/
abbrev Word32 := BitVec 32

/-- The command word W, presented whole on the command port (30_encoding.md R60). -/
abbrev CmdWord := BitVec 72

/-- The response word, VALUE in bits 39:8 and STATUS in bits 7:0 (30_encoding.md R72). -/
abbrev Response := BitVec 40

end Sys2Proof
end

