-- ==== Sys2Proof/Config.lean ====
section
/-! DEFINITION. What one implementation fixes (the open parameters of 00_scope.md R8) and the draws of the
environment, all without a value. -/

namespace Sys2Proof

/-- The open parameters of the block (00_scope.md R8) with the constraints R8 puts on them. The type cannot hold
a parameter choice the spec forbids. A default stands here only so that Lean sees that the type is inhabited; no
definition of the model uses one (log 1). -/
structure Config where
  /-- DIGIT_BASE, the bus address of digit slot 0. -/
  digitBase : Byte := 0
  /-- CTRL_ADDR, the bus address of the control register. -/
  ctrlAddr : Byte := 255
  /-- R8: DIGIT_BASE ≤ 0xFC. -/
  digitBase_le : digitBase.toNat ≤ 0xFC := by decide
  /-- R8: CTRL_ADDR is not in [DIGIT_BASE, DIGIT_BASE+3]. -/
  ctrl_apart : ctrlAddr.toNat < digitBase.toNat ∨ digitBase.toNat + 3 < ctrlAddr.toNat := by decide
  /-- SEG_TABLE as (symbol code, mask) pairs: a partial function, the first pair of a code counting
  (40_segment_codec.md R100; log 2). -/
  segTable : List (Byte × Byte) := []
  /-- INIT_POWER. -/
  initPower : BitVec 1 := 0
  /-- INIT_BRIGHTNESS. -/
  initBrightness : BitVec 3 := 0
deriving DecidableEq, Repr, Inhabited

/-- The transport's answer to one transaction (20_memory.md R45). -/
inductive BusResult where
  | ok
  | fail
deriving DecidableEq, Repr

/-- The parameters of the implementation at hand, open (00_scope.md R8): no claim can see a value. -/
opaque Config.implementation : Config

/-- The answers the transport will give after reset, one for each transaction: free draws under no law
(20_memory.md R45). DESIGN CHOICE (log 3). -/
opaque Config.transportDraws : List BusResult

/-- When the resets after the first will arrive, counted in boundaries of the block: free
(70_reset_and_hazards.md R231). DESIGN CHOICE (log 5). -/
opaque Config.resetDraws : List Nat

end Sys2Proof
end

