-- ==== Sys2Proof/Syntax.lean ====
section
/-! DEFINITION. The commands of the block, one constructor for each row of spec/opcode_table.json. -/

namespace Sys2Proof

/-- The two reduction policies of the MODE field (30_encoding.md R69). -/
inductive Mode where
  | wrap
  | bounded
deriving DecidableEq, Repr

/-- The operands of format T (30_encoding.md R63, R68). All four bytes are kept, also those of elements that LEN
makes absent. -/
structure Elements where
  len : Byte
  e0 : Byte
  e1 : Byte
  e2 : Byte
  e3 : Byte
deriving DecidableEq, Repr

/-- A decoded command (30_encoding.md R65). VAL, SLOT and RAW are the signed integers `s32(A)` of R64. -/
inductive Instr where
  /-- LOOKUP, 40_segment_codec.md R102. -/
  | lookup (sym : Byte)
  /-- SET_BRIGHTNESS, 41_display_controller.md R122. -/
  | setBrightness (val : Int)
  /-- POWER_ON, 41_display_controller.md R123. -/
  | powerOn
  /-- POWER_OFF, 41_display_controller.md R124. -/
  | powerOff
  /-- CLEAR, 41_display_controller.md R125. -/
  | clear
  /-- WRITE_DIGIT, 41_display_controller.md R126. -/
  | writeDigit (slot : Int) (mask : Word32)
  /-- SHOW_TEXT, 41_display_controller.md R127. -/
  | showText (elems : Elements)
  /-- SHOW_SEGMENTS, 41_display_controller.md R128. -/
  | showSegments (elems : Elements)
  /-- SCALE, 42_scale_renderer.md R164. -/
  | scale (count : Int)
  /-- RENDER, 42_scale_renderer.md R165. -/
  | render (count : Int)
  /-- REDUCE, 42_scale_renderer.md R174. -/
  | reduce (raw : Int) (mode : Mode) (cap : Byte)
  /-- RENDER_POS, 42_scale_renderer.md R175. -/
  | renderPos (raw : Int) (mode : Mode) (cap : Byte)
deriving DecidableEq, Repr

end Sys2Proof
end

