-- ==== Sys2Proof/Machine/State.lean ====
section
/-! DEFINITION. The state of the block, what it observes, and its inputs as plain data; the ways a step can stop. -/

namespace Sys2Proof.Machine

/-- The display image (10_state.md R27): addresses strictly rising, an unlisted address holding no known value. -/
abbrev Memory := List Host.Cell

/-- One entry of the trace (10_state.md R28). -/
structure Transaction where
  addr : Byte
  data : Byte
  result : BusResult
deriving DecidableEq, Repr

/-- What happened, in order (70_reset_and_hazards.md R240: transactions, responses and resets). -/
inductive Event where
  | transaction (t : Transaction)
  | response (r : Response)
  | reset
deriving DecidableEq, Repr

/-- The command phase (10_state.md R29). -/
inductive Phase where
  | idle
  /-- `k` transactions of `cmd` have been issued; between steps the last of them waits for the transport's answer
  (log 10). -/
  | executing (cmd : Instr) (k : Nat)
deriving DecidableEq, Repr

/-- Everything the spec gives the machine (10_state.md R31), with the open parameters and the pending inputs. -/
structure State where
  /-- The open parameters (00_scope.md R8). -/
  cfg : Config
  /-- PWR (10_state.md R21). -/
  pwr : BitVec 1
  /-- BRI (10_state.md R22). -/
  bri : BitVec 3
  /-- The command phase (10_state.md R29). -/
  phase : Phase
  /-- The display image of the remote controller (10_state.md R27). -/
  image : Memory
  /-- The trace (10_state.md R28) with the responses and the resets between its entries (log 12). -/
  log : List Event
  /-- The words presented on the command port and not yet accepted, the held one first
  (70_reset_and_hazards.md R234). -/
  commands : List CmdWord
  /-- The transport's coming answers (20_memory.md R45); none is a transport that does not answer yet (log 3, log 4). -/
  answers : List BusResult
  /-- How many boundaries pass before each coming reset (70_reset_and_hazards.md R231; log 5). -/
  resets : List Nat
deriving DecidableEq, Repr

/-- The block never stops: every exception of the spec is a response (60_exceptions.md R200), so no fault exists.
Nothing raises one. -/
inductive Fault where
deriving DecidableEq, Repr

/-- Why a step has no meaning. -/
inductive Refusal where
  /-- An arm of `exec` that has no meaning yet, by mnemonic: raised by no arm of this model. Safe. -/
  | notModelled (mnemonic : String)
deriving DecidableEq, Repr

/-- What every meaning answers. -/
abbrev Outcome := Host.Outcome State Fault Refusal

/-- The machine after power-up and reset: PWR, BRI and the phase as 70_reset_and_hazards.md R230, no trace and no
known image byte (R232; log 13), no command presented (log 9), free draws of the environment (log 3, log 5). -/
def State.reset : State :=
  { cfg := Config.implementation
    pwr := Config.implementation.initPower
    bri := Config.implementation.initBrightness
    phase := .idle
    image := []
    log := []
    commands := []
    answers := Config.transportDraws
    resets := Config.resetDraws }

end Sys2Proof.Machine
end

