-- ==== Sys2Proof/Machine/Flags.lean ====
section
/-! DEFINITION. The block has no flags (10_state.md R25): each command's outcome is the STATUS and VALUE of its
response, computed here (30_encoding.md R72, 60_exceptions.md R201). -/

namespace Sys2Proof.Machine

/-- The status codes (60_exceptions.md R201). -/
inductive Status where
  | ok
  | invalidSlot
  | outOfRange
  | busWriteFailure
  | illegalCommand
deriving DecidableEq, Repr

/-- The number of a status (60_exceptions.md R201). -/
def Status.code : Status → Byte
  | .ok => 0
  | .invalidSlot => 1
  | .outOfRange => 2
  | .busWriteFailure => 3
  | .illegalCommand => 4

/-- The response word VALUE, STATUS (30_encoding.md R72). -/
def responseWord (status : Status) (value : Word32) : Response := value ++ status.code

/-- STATUS, bits 7:0 of a response (30_encoding.md R72). -/
def responseStatus (r : Response) : Byte := r.extractLsb' 0 8

/-- VALUE, bits 39:8 of a response (30_encoding.md R72). -/
def responseValue (r : Response) : Word32 := r.extractLsb' 8 32

/-- The exceptions with what their info is made of (60_exceptions.md R201). -/
inductive Exn where
  /-- The 32 bits of the slot (60_exceptions.md R202). -/
  | invalidSlot (a : Word32)
  /-- The 32 bits of a count, or a capacity zero-extended (60_exceptions.md R203). -/
  | outOfRange (info : Word32)
  /-- The failed transaction's address and its place among the digit writes (60_exceptions.md R204). -/
  | busWriteFailure (addr : Byte) (index : Nat)
  /-- The opcode byte (60_exceptions.md R205). -/
  | illegalCommand (opc : Byte)
deriving DecidableEq, Repr

/-- The status of an exception (60_exceptions.md R201). -/
def Exn.status : Exn → Status
  | .invalidSlot _ => .invalidSlot
  | .outOfRange _ => .outOfRange
  | .busWriteFailure _ _ => .busWriteFailure
  | .illegalCommand _ => .illegalCommand

/-- The info in VALUE (60_exceptions.md R201). -/
def Exn.info : Exn → Word32
  | .invalidSlot a => a
  | .outOfRange info => info
  | .busWriteFailure addr index => (addr.setWidth 32 <<< 8) ||| BitVec.ofNat 32 index
  | .illegalCommand opc => opc.setWidth 32

end Sys2Proof.Machine
end

