-- ==== Sys2Proof/Machine/Operands.lean ====
section
/-! DEFINITION. The operand arithmetic of the commands: integers, symbols, masks, counts, positions, addresses. -/

namespace Sys2Proof.Machine

/-! ### Integers (00_scope.md R11) -/

/-- `clamp(v, lo, hi)` (00_scope.md R11). -/
def clamp (v lo hi : Int) : Int := if v < lo then lo else if v > hi then hi else v

/-- `a mod b`, the Euclidean remainder (00_scope.md R11). -/
def euclidMod (a b : Int) : Int := Int.emod a b

/-! ### The bus registers (20_memory.md) -/

/-- DigitAddr(s), computed as an 8-bit value (20_memory.md R42). -/
def digitAddr (cfg : Config) (slot : Nat) : Byte := cfg.digitBase + BitVec.ofNat 8 slot

/-- The five addresses the block writes (20_memory.md R41). -/
def busAddrs (cfg : Config) : List Byte :=
  [cfg.ctrlAddr, digitAddr cfg 0, digitAddr cfg 1, digitAddr cfg 2, digitAddr cfg 3]

/-- CtrlByte(PWR, BRI) (20_memory.md R44). -/
def ctrlByte (pwr : BitVec 1) (bri : BitVec 3) : Byte := pwr.setWidth 8 ||| (bri.setWidth 8 <<< 4)

/-! ### The segment codec (40_segment_codec.md) -/

/-- SEG_TABLE(sym), none outside the known set (40_segment_codec.md R100). -/
def tableLookup : List (Byte × Byte) → Byte → Option Byte
  | [], _ => none
  | (code, mask) :: rest, sym => if code = sym then some mask else tableLookup rest sym

/-- Seg(sym) (40_segment_codec.md R101): an unknown symbol is blank. -/
def seg (cfg : Config) (sym : Byte) : Byte := (tableLookup cfg.segTable sym).getD 0x00

/-! ### Four masks, one for each slot -/

/-- The masks of the four slots in increasing slot order (41_display_controller.md R121). -/
structure Masks where
  m0 : Byte
  m1 : Byte
  m2 : Byte
  m3 : Byte
deriving DecidableEq, Repr

/-- The masks a function of the slot gives. -/
def Masks.ofSlots (f : Nat → Byte) : Masks := ⟨f 0, f 1, f 2, f 3⟩

/-- The mask of slot `s`, for s in 0..3. -/
def Masks.get (m : Masks) : Nat → Byte
  | 0 => m.m0
  | 1 => m.m1
  | 2 => m.m2
  | _ => m.m3

/-- CLEAR's masks (41_display_controller.md R125). -/
def Masks.blank : Masks := ⟨0x00, 0x00, 0x00, 0x00⟩

/-- m[0] | (m[1] << 8) | (m[2] << 16) | (m[3] << 24) (42_scale_renderer.md R164). -/
def Masks.pack (m : Masks) : Word32 :=
  m.m0.setWidth 32 ||| (m.m1.setWidth 32 <<< 8) ||| (m.m2.setWidth 32 <<< 16) ||| (m.m3.setWidth 32 <<< 24)

/-! ### Format T (30_encoding.md R68) -/

/-- Element byte Ei. -/
def elementByte (t : Elements) : Nat → Byte
  | 0 => t.e0
  | 1 => t.e1
  | 2 => t.e2
  | _ => t.e3

/-- Element i is present when i < min(LEN, 4) (30_encoding.md R68). -/
def elementPresent (t : Elements) (i : Nat) : Bool := decide (i < min t.len.toNat 4)

/-- The four masks of the elements under `f`, an absent element blank (41_display_controller.md R127, R128). -/
def elementMasks (f : Byte → Byte) (t : Elements) : Masks :=
  Masks.ofSlots fun i => if elementPresent t i then f (elementByte t i) else 0x00

/-! ### Count to masks (42_scale_renderer.md) -/

/-- The mask of slot `s` for a count in [0, 31] (42_scale_renderer.md R161). -/
def scaleMask (count s : Nat) : Byte :=
  let full := count / 8
  let rem := count % 8
  if s ≥ 4 - full then 0xFF
  else if s = 3 - full then ((1#8) <<< rem) - 1#8
  else 0x00

/-- ScaleMasks(count) (42_scale_renderer.md R161). -/
def scaleMasks (count : Nat) : Masks := Masks.ofSlots (scaleMask count)

/-- The legal counts of SCALE and RENDER (42_scale_renderer.md R160). -/
def countLegal (count : Int) : Bool := decide (0 ≤ count) && decide (count ≤ 31)

/-! ### Position to count (42_scale_renderer.md) -/

/-- Reduce(raw, mode, cap) (42_scale_renderer.md R170). -/
def reducePos (raw : Int) (mode : Mode) (cap : Byte) : Int :=
  match mode with
  | .wrap => euclidMod raw cap.toNat
  | .bounded => clamp raw 1 (cap.toNat - 1)

/-- The legal capacities of REDUCE and RENDER_POS (42_scale_renderer.md R173). -/
def capLegal (cap : Byte) : Bool := decide (2 ≤ cap.toNat) && decide (cap.toNat ≤ 32)

/-- The legal slots of WRITE_DIGIT (41_display_controller.md R126). -/
def slotLegal (slot : Int) : Bool := decide (0 ≤ slot) && decide (slot ≤ 3)

end Sys2Proof.Machine
end

