-- ==== Sys2Proof/Machine/Ops.lean ====
section
/-! DEFINITION. The shared operations: the display image, the bus, responding, taking an exception, reset, the
register-write sequencer, and the inputs of the outside world. -/

namespace Sys2Proof.Machine

/-! ### The display image (10_state.md R27) -/

/-- The byte at an address, none where no value is known. -/
def Memory.read : Memory → Nat → Option Byte
  | [], _ => none
  | (a', b) :: m, a => if a' = a then some b else Memory.read m a

/-- The image after a successful write: the whole byte is replaced (10_state.md R27). -/
def Memory.write : Memory → Nat → Byte → Memory
  | [], a, b => [(a, b)]
  | (a', b') :: m, a, b =>
    if a < a' then (a, b) :: (a', b') :: m
    else if a = a' then (a, b) :: m
    else (a', b') :: Memory.write m a b

/-- The image after a failed write: its address holds no known value (20_memory.md R48; log 11). -/
def Memory.forget : Memory → Nat → Memory
  | [], _ => []
  | (a', b') :: m, a => if a' = a then m else (a', b') :: Memory.forget m a

/-- The canonical form: 8-bit addresses, strictly rising. -/
abbrev Memory.wf (m : Memory) : Prop :=
  m.Pairwise (fun c d => c.1 < d.1) ∧ ∀ c ∈ m, c.1 < 256

/-- The display image at a bus address. -/
def State.imageAt (s : State) (a : Byte) : Option Byte := s.image.read a.toNat

/-! ### Views of the log -/

/-- The transaction of an event. -/
def Event.transaction? : Event → Option Transaction
  | .transaction t => some t
  | _ => none

/-- The response of an event. -/
def Event.response? : Event → Option Response
  | .response r => some r
  | _ => none

/-- The trace (10_state.md R28). -/
def State.trace (s : State) : List Transaction := s.log.filterMap Event.transaction?

/-- The responses, in order (30_encoding.md R72). -/
def State.responses (s : State) : List Response := s.log.filterMap Event.response?

/-! ### Ending a command -/

/-- `respond(status, value)` (00_scope.md R12): the response appears and the block is Idle (60_exceptions.md R210). -/
def State.respond (s : State) (status : Status) (value : Word32) : State :=
  { s with log := s.log ++ [.response (responseWord status value)], phase := .idle }

/-- TAKING AN EXCEPTION (60_exceptions.md R200): the response carries the status and the info, nothing is saved, no
register changes, there is no handler, and the block is Idle. There is no return from it (R210). -/
def State.raise (s : State) (e : Exn) : State := s.respond e.status e.info

/-! ### Reset -/

/-- What reset does (70_reset_and_hazards.md R230): PWR, BRI and the phase. It answers nothing, writes nothing on
the bus and leaves the trace and the display image (R231, R232). Held words stay on the port (R234; log 14). -/
def State.takeReset (s : State) : State :=
  { s with
    pwr := s.cfg.initPower
    bri := s.cfg.initBrightness
    phase := .idle
    log := s.log ++ [.reset]
    resets := s.resets.tail }

/-- A reset is due at this boundary of the block (70_reset_and_hazards.md R231; log 5). -/
def State.resetDue (s : State) : Bool :=
  match s.resets with
  | 0 :: _ => true
  | _ => false

/-- The state past a boundary at which no reset is due: the next reset is one boundary nearer (log 5). -/
def State.passBoundary (s : State) : State :=
  { s with
    resets := match s.resets with
      | [] => []
      | n :: rest => (n - 1) :: rest }

/-! ### The bus and the sequencer -/

/-- A transaction a command lists: `index` is its place among the digit writes (60_exceptions.md R204). -/
structure Write where
  addr : Byte
  data : Byte
  index : Nat
deriving DecidableEq, Repr

/-- `BusWrite(addr, data)` once the transport has answered `r` (20_memory.md R45, R48): the answer is taken, the
trace grows, and the image at the address becomes the byte or unknown. -/
def State.busWrite (s : State) (w : Write) (r : BusResult) : State :=
  { s with
    log := s.log ++ [.transaction ⟨w.addr, w.data, r⟩]
    image := match r with
      | .ok => s.image.write w.addr.toNat w.data
      | .fail => s.image.forget w.addr.toNat
    answers := s.answers.tail }

/-- Issue the transactions of `cmd` that are left, `k` of them having returned, each after the one before has returned
(20_memory.md R50); then respond OK (30_encoding.md R72).
- Without an answer the block stays Executing, that transaction issued (70_reset_and_hazards.md R240; log 4).
- After an answer a reset may take effect, and the command gives no response (R231; log 7).
- The first failure ends the command with BusWriteFailure (41_display_controller.md R121, 60_exceptions.md R204). -/
def transact (cmd : Instr) : Nat → List Write → State → State
  | _, [], s => s.respond .ok 0
  | k, w :: ws, s =>
    match s.answers.head? with
    | none => { s with phase := .executing cmd (k + 1) }
    | some r =>
      if (s.busWrite w r).resetDue then (s.busWrite w r).takeReset
      else
        match r with
        | .ok => transact cmd (k + 1) ws (s.busWrite w r).passBoundary
        | .fail => (s.busWrite w r).passBoundary.raise (.busWriteFailure w.addr w.index)

/-- The transaction of WriteControl, from the current PWR and BRI (41_display_controller.md R120). -/
def controlWrite (s : State) : Write := ⟨s.cfg.ctrlAddr, ctrlByte s.pwr s.bri, 0⟩

/-- The transactions of WriteSlots, in slot order (41_display_controller.md R121). -/
def slotWrites (cfg : Config) (m : Masks) : List Write :=
  [⟨digitAddr cfg 0, m.m0, 0⟩, ⟨digitAddr cfg 1, m.m1, 1⟩, ⟨digitAddr cfg 2, m.m2, 2⟩, ⟨digitAddr cfg 3, m.m3, 3⟩]

/-- WriteControl, then respond OK, from transaction `k` on (41_display_controller.md R120). -/
def writeControl (cmd : Instr) (k : Nat) (s : State) : State := transact cmd k ([controlWrite s].drop k) s

/-- WriteSlots, then respond OK, from transaction `k` on (41_display_controller.md R121). -/
def writeSlots (cmd : Instr) (k : Nat) (m : Masks) (s : State) : State :=
  transact cmd k ((slotWrites s.cfg m).drop k) s

/-! ### The inputs of the outside world -/

/-- The host presents a word; it is held behind those presented before (70_reset_and_hazards.md R234). -/
def State.present (s : State) (w : CmdWord) : State := { s with commands := s.commands ++ [w] }

/-- The transport gives its answer to the next transaction it has not answered (20_memory.md R45). -/
def State.answer (s : State) (r : BusResult) : State := { s with answers := s.answers ++ [r] }

/-- A reset will arrive `n` boundaries after the resets already pending (70_reset_and_hazards.md R231). -/
def State.armReset (s : State) (n : Nat) : State := { s with resets := s.resets ++ [n] }

end Sys2Proof.Machine
end

