-- ==== Sys2Proof/Machine/Codec.lean ====
section
/-! DEFINITION. The segment codec's command (40_segment_codec.md). -/

namespace Sys2Proof.Machine

/-- LOOKUP (40_segment_codec.md R102): the mask of one symbol; an unknown symbol is no error (60_exceptions.md R206). -/
def execLookup (sym : Byte) (s : State) : Outcome :=
  .next (s.respond .ok ((seg s.cfg sym).setWidth 32))

end Sys2Proof.Machine
end

