-- ==== Sys2Proof/Machine/Control.lean ====
section
/-! DEFINITION. The control commands (41_display_controller.md R122–R124). Each writes its register first, and the
register stays written when the transaction fails (R131). -/

namespace Sys2Proof.Machine

/-- SET_BRIGHTNESS (41_display_controller.md R122): an out-of-range VAL is clamped, no error (60_exceptions.md R207). -/
def execSetBrightness (val : Int) (s : State) : Outcome :=
  .next (writeControl (.setBrightness val) 0 { s with bri := BitVec.ofInt 3 (clamp val 0 7) })

/-- POWER_ON (41_display_controller.md R123). -/
def execPowerOn (s : State) : Outcome :=
  .next (writeControl .powerOn 0 { s with pwr := 1 })

/-- POWER_OFF (41_display_controller.md R124): the digit registers are not written. -/
def execPowerOff (s : State) : Outcome :=
  .next (writeControl .powerOff 0 { s with pwr := 0 })

end Sys2Proof.Machine
end

