-- ==== Sys2Proof/WellFormed.lean ====
section
/-! DEFINITION. Which commands a command word can carry (30_encoding.md R64). -/

namespace Sys2Proof

/-- The range of a 32-bit two's complement field (00_scope.md R10). -/
def inS32 (v : Int) : Bool := decide (-2 ^ 31 ≤ v) && decide (v ≤ 2 ^ 31 - 1)

/-- 30_encoding.md R64: a value outside the signed 32-bit range cannot be presented. Every other operand is as
wide as its field by its type. -/
def Instr.wf : Instr → Bool
  | .lookup _ => true
  | .setBrightness val => inS32 val
  | .powerOn => true
  | .powerOff => true
  | .clear => true
  | .writeDigit slot _ => inS32 slot
  | .showText _ => true
  | .showSegments _ => true
  | .scale count => inS32 count
  | .render count => inS32 count
  | .reduce raw _ _ => inS32 raw
  | .renderPos raw _ _ => inS32 raw

end Sys2Proof
end

