-- ==== Sys2Proof/Decode.lean ====
section
/-! DEFINITION. Decoding command words and bytes, rejecting by name, and the encoder (30_encoding.md). -/

namespace Sys2Proof

/-- Why a word or a byte sequence is no command. -/
inductive Reject where
  /-- 30_encoding.md R67: opcode 0x00 or 0x0D–0xFF. -/
  | undefinedOpcode
  /-- 30_encoding.md R66: a reserved bit is 1. -/
  | reservedBit
  /-- 30_encoding.md R69: MODE is 2..255. -/
  | illegalMode
  /-- 30_encoding.md R60, R61: a command is exactly nine bytes. -/
  | wrongLength
deriving DecidableEq, Repr

/-- The six formats (30_encoding.md R63). -/
inductive Format where
  | N
  | L
  | V
  | D
  | T
  | P
deriving DecidableEq, Repr

/-- `W[lo+len-1 : lo]` (00_scope.md R10). -/
def field (w : CmdWord) (lo len : Nat) : BitVec len := w.extractLsb' lo len

/-- OPC = W[7:0] (30_encoding.md R62). -/
def opcodeOf (w : CmdWord) : Byte := field w 0 8

/-- The opcode map (30_encoding.md R65). -/
def formatOf (opc : Byte) : Option Format :=
  match opc.toNat with
  | 0x01 => some .L
  | 0x02 => some .V
  | 0x03 => some .N
  | 0x04 => some .N
  | 0x05 => some .N
  | 0x06 => some .D
  | 0x07 => some .T
  | 0x08 => some .T
  | 0x09 => some .V
  | 0x0A => some .V
  | 0x0B => some .P
  | 0x0C => some .P
  | _ => none

/-- ReservedMask (30_encoding.md R66, R71). -/
def Format.reservedMask : Format → CmdWord
  | .N => 0xFFFFFFFFFFFFFFFF00#72
  | .L => 0xFFFFFFFFFFFFFF0000#72
  | .V => 0xFFFFFFFF0000000000#72
  | .D => 0#72
  | .T => 0xFFFFFF000000000000#72
  | .P => 0xFFFF00000000000000#72

/-- VAL, SLOT and RAW: `s32(A)` with A = W[39:8] (30_encoding.md R62, R64). -/
def signedA (w : CmdWord) : Int := (field w 8 32).toInt

/-- MASK = Bf = W[71:40] (30_encoding.md R62, R63). -/
def maskOf (w : CmdWord) : Word32 := field w 40 32

/-- The fields of format T (30_encoding.md R63). -/
def elementsOf (w : CmdWord) : Elements :=
  { len := field w 40 8, e0 := field w 8 8, e1 := field w 16 8, e2 := field w 24 8, e3 := field w 32 8 }

/-- MODE = W[47:40]: 0 is Wrap, 1 is Bounded (30_encoding.md R63, R69). -/
def modeOf (w : CmdWord) : Option Mode :=
  match (field w 40 8).toNat with
  | 0 => some .wrap
  | 1 => some .bounded
  | _ => none

/-- CAP = W[55:48] (30_encoding.md R63). -/
def capOf (w : CmdWord) : Byte := field w 48 8

/-- The command of a word whose opcode is defined and whose reserved bits are 0 (30_encoding.md R65, R69). -/
def commandOf (w : CmdWord) : Except Reject Instr :=
  match (opcodeOf w).toNat with
  | 0x01 => .ok (.lookup (field w 8 8))
  | 0x02 => .ok (.setBrightness (signedA w))
  | 0x03 => .ok .powerOn
  | 0x04 => .ok .powerOff
  | 0x05 => .ok .clear
  | 0x06 => .ok (.writeDigit (signedA w) (maskOf w))
  | 0x07 => .ok (.showText (elementsOf w))
  | 0x08 => .ok (.showSegments (elementsOf w))
  | 0x09 => .ok (.scale (signedA w))
  | 0x0A => .ok (.render (signedA w))
  | 0x0B =>
    match modeOf w with
    | some mode => .ok (.reduce (signedA w) mode (capOf w))
    | none => .error .illegalMode
  | 0x0C =>
    match modeOf w with
    | some mode => .ok (.renderPos (signedA w) mode (capOf w))
    | none => .error .illegalMode
  | _ => .error .undefinedOpcode

/-- Decode, total on all 2^72 words (30_encoding.md R71): first the opcode, then the reserved bits, then MODE. -/
def decode (w : CmdWord) : Except Reject Instr :=
  match formatOf (opcodeOf w) with
  | none => .error .undefinedOpcode
  | some f => if w &&& f.reservedMask = 0#72 then commandOf w else .error .reservedBit

/-- The word of nine bytes B0..B8, B0 first (30_encoding.md R61). -/
def wordOfBytes : List Byte → Option CmdWord
  | [b0, b1, b2, b3, b4, b5, b6, b7, b8] => some (b8 ++ b7 ++ b6 ++ b5 ++ b4 ++ b3 ++ b2 ++ b1 ++ b0)
  | _ => none

/-- `Bk = W[8k+7 : 8k]`, B0 first (30_encoding.md R61). -/
def bytesOfWord (w : CmdWord) : List Byte :=
  [field w 0 8, field w 8 8, field w 16 8, field w 24 8, field w 32 8, field w 40 8, field w 48 8, field w 56 8,
    field w 64 8]

/-- Decode the bytes a host sends over a byte-wide link (30_encoding.md R61). -/
def decodeBytes (bs : List Byte) : Except Reject Instr :=
  match wordOfBytes bs with
  | some w => decode w
  | none => .error .wrongLength

/-! ### The encoder -/

/-- A word from its three common fields (30_encoding.md R62). -/
def wordOfFields (opc : Byte) (a bf : Word32) : CmdWord := bf ++ a ++ opc

/-- The opcode of a command (30_encoding.md R65). -/
def Instr.opcode : Instr → Byte
  | .lookup _ => 0x01
  | .setBrightness _ => 0x02
  | .powerOn => 0x03
  | .powerOff => 0x04
  | .clear => 0x05
  | .writeDigit _ _ => 0x06
  | .showText _ => 0x07
  | .showSegments _ => 0x08
  | .scale _ => 0x09
  | .render _ => 0x0A
  | .reduce _ _ _ => 0x0B
  | .renderPos _ _ _ => 0x0C

/-- The format of a command (30_encoding.md R65). -/
def Instr.format : Instr → Format
  | .lookup _ => .L
  | .setBrightness _ => .V
  | .powerOn => .N
  | .powerOff => .N
  | .clear => .N
  | .writeDigit _ _ => .D
  | .showText _ => .T
  | .showSegments _ => .T
  | .scale _ => .V
  | .render _ => .V
  | .reduce _ _ _ => .P
  | .renderPos _ _ _ => .P

/-- The MODE byte (30_encoding.md R69, R73). -/
def Mode.code : Mode → Byte
  | .wrap => 0
  | .bounded => 1

/-- A = v mod 2^32 (30_encoding.md R73). -/
def a32 (v : Int) : Word32 := BitVec.ofInt 32 v

/-- A of format T: E3, E2, E1, E0 from the top (30_encoding.md R63). -/
def Elements.fieldA (t : Elements) : Word32 := t.e3 ++ t.e2 ++ t.e1 ++ t.e0

/-- Bf of format P: 16 reserved bits, CAP, MODE (30_encoding.md R63). -/
def fieldModeCap (mode : Mode) (cap : Byte) : Word32 := 0#16 ++ cap ++ mode.code

/-- The command word of a command (30_encoding.md R63, R73). Reserved bits are 0. -/
def encode (i : Instr) : CmdWord :=
  match i with
  | .lookup sym => wordOfFields i.opcode (sym.setWidth 32) 0
  | .setBrightness val => wordOfFields i.opcode (a32 val) 0
  | .powerOn => wordOfFields i.opcode 0 0
  | .powerOff => wordOfFields i.opcode 0 0
  | .clear => wordOfFields i.opcode 0 0
  | .writeDigit slot mask => wordOfFields i.opcode (a32 slot) mask
  | .showText t => wordOfFields i.opcode t.fieldA (t.len.setWidth 32)
  | .showSegments t => wordOfFields i.opcode t.fieldA (t.len.setWidth 32)
  | .scale count => wordOfFields i.opcode (a32 count) 0
  | .render count => wordOfFields i.opcode (a32 count) 0
  | .reduce raw mode cap => wordOfFields i.opcode (a32 raw) (fieldModeCap mode cap)
  | .renderPos raw mode cap => wordOfFields i.opcode (a32 raw) (fieldModeCap mode cap)

/-- The instruction the decoder reads from the `nbits` low bits of `w`, numbered as spec/opcode_table.json numbers
them (bit 0 is the least significant bit of B0); the bits above are 0. -/
def decodeTableWord (nbits w : Nat) : Option Instr :=
  match decode (BitVec.ofNat 72 (w % 2 ^ nbits)) with
  | .ok i => some i
  | .error _ => none

end Sys2Proof
end

