-- ==== Sys2Proof/Machine/Digits.lean ====
section
/-! DEFINITION. The digit commands (41_display_controller.md R125–R128). Each has a form that goes on from its
transaction `k`, which its meaning and the resumption of a waiting command share. -/

namespace Sys2Proof.Machine

/-- CLEAR from transaction `k` on. -/
def clearFrom (k : Nat) (s : State) : Outcome :=
  .next (writeSlots .clear k Masks.blank s)

/-- CLEAR (41_display_controller.md R125): 0x00 to all four slots; the control register is not written. -/
def execClear (s : State) : Outcome := clearFrom 0 s

/-- The transaction of WRITE_DIGIT on a legal slot: the low byte of MASK (41_display_controller.md R126). -/
def digitWrite (cfg : Config) (slot : Int) (mask : Word32) : Write :=
  ⟨digitAddr cfg slot.toNat, mask.setWidth 8, 0⟩

/-- WRITE_DIGIT from transaction `k` on: the slot is checked before any transaction (60_exceptions.md R202). -/
def writeDigitFrom (k : Nat) (slot : Int) (mask : Word32) (s : State) : Outcome :=
  if slotLegal slot then .next (transact (.writeDigit slot mask) k ([digitWrite s.cfg slot mask].drop k) s)
  else .next (s.raise (.invalidSlot (a32 slot)))

/-- WRITE_DIGIT (41_display_controller.md R126): one slot only, the others keep their image. -/
def execWriteDigit (slot : Int) (mask : Word32) (s : State) : Outcome := writeDigitFrom 0 slot mask s

/-- SHOW_TEXT from transaction `k` on. -/
def showTextFrom (k : Nat) (t : Elements) (s : State) : Outcome :=
  .next (writeSlots (.showText t) k (elementMasks (seg s.cfg) t) s)

/-- SHOW_TEXT (41_display_controller.md R127): each present symbol looked up, all four slots written. -/
def execShowText (t : Elements) (s : State) : Outcome := showTextFrom 0 t s

/-- SHOW_SEGMENTS from transaction `k` on. -/
def showSegmentsFrom (k : Nat) (t : Elements) (s : State) : Outcome :=
  .next (writeSlots (.showSegments t) k (elementMasks id t) s)

/-- SHOW_SEGMENTS (41_display_controller.md R128): the masks bypass SEG_TABLE. -/
def execShowSegments (t : Elements) (s : State) : Outcome := showSegmentsFrom 0 t s

end Sys2Proof.Machine
end

