-- ==== Sys2Proof/Machine/Scale.lean ====
section
/-! DEFINITION. The linear-scale converter's commands (42_scale_renderer.md). The range checks come before any
transaction (60_exceptions.md R203, R208). -/

namespace Sys2Proof.Machine

/-- SCALE (42_scale_renderer.md R164): the four masks of a count, packed, without writing them. -/
def execScale (count : Int) (s : State) : Outcome :=
  if countLegal count then .next (s.respond .ok (scaleMasks count.toNat).pack)
  else .next (s.raise (.outOfRange (a32 count)))

/-- RENDER from transaction `k` on. -/
def renderFrom (k : Nat) (count : Int) (s : State) : Outcome :=
  if countLegal count then .next (writeSlots (.render count) k (scaleMasks count.toNat) s)
  else .next (s.raise (.outOfRange (a32 count)))

/-- RENDER (42_scale_renderer.md R165): the four masks of a count, written to all four slots. -/
def execRender (count : Int) (s : State) : Outcome := renderFrom 0 count s

/-- REDUCE (42_scale_renderer.md R174): a raw position to a scale count, returned. -/
def execReduce (raw : Int) (mode : Mode) (cap : Byte) (s : State) : Outcome :=
  if capLegal cap then .next (s.respond .ok (BitVec.ofInt 32 (reducePos raw mode cap)))
  else .next (s.raise (.outOfRange (cap.setWidth 32)))

/-- RENDER_POS from transaction `k` on. -/
def renderPosFrom (k : Nat) (raw : Int) (mode : Mode) (cap : Byte) (s : State) : Outcome :=
  if capLegal cap then
    .next (writeSlots (.renderPos raw mode cap) k (scaleMasks (reducePos raw mode cap).toNat) s)
  else .next (s.raise (.outOfRange (cap.setWidth 32)))

/-- RENDER_POS (42_scale_renderer.md R175): a raw position to a count, its masks written to all four slots. -/
def execRenderPos (raw : Int) (mode : Mode) (cap : Byte) (s : State) : Outcome := renderPosFrom 0 raw mode cap s

end Sys2Proof.Machine
end

