-- ==== Sys2Proof/Machine/Dispatch.lean ====
section
/-! DEFINITION. One arm for each command of spec/opcode_table.json. -/

namespace Sys2Proof.Machine

def exec (i : Instr) (s : State) : Host.Outcome State Fault Refusal :=
  match i with
  | .lookup sym => Sys2Proof.Machine.execLookup sym s
  | .setBrightness val => Sys2Proof.Machine.execSetBrightness val s
  | .powerOn => Sys2Proof.Machine.execPowerOn s
  | .powerOff => Sys2Proof.Machine.execPowerOff s
  | .clear => Sys2Proof.Machine.execClear s
  | .writeDigit slot mask => Sys2Proof.Machine.execWriteDigit slot mask s
  | .showText elems => Sys2Proof.Machine.execShowText elems s
  | .showSegments elems => Sys2Proof.Machine.execShowSegments elems s
  | .scale count => Sys2Proof.Machine.execScale count s
  | .render count => Sys2Proof.Machine.execRender count s
  | .reduce raw mode cap => Sys2Proof.Machine.execReduce raw mode cap s
  | .renderPos raw mode cap => Sys2Proof.Machine.execRenderPos raw mode cap s

end Sys2Proof.Machine
end

