-- ==== Sys2Proof/Machine/Port.lean ====
section
/-! DEFINITION. The command port: accepting a word when the block is Idle, and going on with a command that waits
for the transport (10_state.md R29, 70_reset_and_hazards.md R231, R234). -/

namespace Sys2Proof.Machine

/-- What the Idle block does with its command port. -/
inductive Fetched where
  /-- No command is to be run: the block has waited, been reset or rejected a word, and stands in this state. -/
  | done (s : State)
  /-- This command has been accepted and is to be run in this state. -/
  | runs (cmd : Instr) (s : State)
deriving DecidableEq, Repr

/-- The word on the port is taken off it; a reset may take effect before anything is done for it, and then the word
gets no response (70_reset_and_hazards.md R231; log 6). A word that does not decode gets IllegalCommand and nothing
else happens (60_exceptions.md R205). -/
def acceptWord (w : CmdWord) (rest : List CmdWord) (s : State) : Fetched :=
  let s₁ := { s with commands := rest }
  if s₁.resetDue then .done s₁.takeReset
  else
    match decode w with
    | .error _ => .done (s₁.passBoundary.raise (.illegalCommand (opcodeOf w)))
    | .ok cmd => .runs cmd { s₁.passBoundary with phase := .executing cmd 0 }

/-- The Idle block: a reset that is due takes effect first; without a word it waits (log 9); else it accepts the
held word (70_reset_and_hazards.md R233, R234). -/
def fetch (s : State) : Fetched :=
  if s.resetDue then .done s.takeReset
  else
    match s.commands with
    | [] => .done s
    | w :: rest => acceptWord w rest s.passBoundary

/-- Go on with a command of which `returned` transactions have returned (10_state.md R29). Its register has been written
and its operands checked already; a command that issues no transaction never waits, and goes through its meaning. -/
def continueFrom (cmd : Instr) (returned : Nat) (s : State) : Outcome :=
  match cmd with
  | .lookup sym => execLookup sym s
  | .setBrightness val => .next (writeControl (.setBrightness val) returned s)
  | .powerOn => .next (writeControl .powerOn returned s)
  | .powerOff => .next (writeControl .powerOff returned s)
  | .clear => clearFrom returned s
  | .writeDigit slot mask => writeDigitFrom returned slot mask s
  | .showText t => showTextFrom returned t s
  | .showSegments t => showSegmentsFrom returned t s
  | .scale count => execScale count s
  | .render count => renderFrom returned count s
  | .reduce raw mode cap => execReduce raw mode cap s
  | .renderPos raw mode cap => renderPosFrom returned raw mode cap s

/-- Go on with the command in progress: of its `k` issued transactions the last waits for the transport, the others have
returned (10_state.md R29, 20_memory.md R50; log 10). -/
def resume (cmd : Instr) (k : Nat) (s : State) : Outcome := continueFrom cmd (k - 1) s

end Sys2Proof.Machine
end

