-- ==== Sys2Proof/Machine/Step.lean ====
section
/-! DEFINITION. One step of the block: Idle, it takes the next word from the command port and runs the command as far
as the transport answers; Executing, it goes on with the command in progress (10_state.md R29; log 8). -/

namespace Sys2Proof.Machine

/-- One step. -/
def step (s : State) : Host.Outcome State Fault Refusal :=
  match s.phase with
  | .executing cmd k => resume cmd k s
  | .idle =>
    match fetch s with
    | .done t => .next t
    | .runs cmd t => exec cmd t

/-- `s` with the word of the `nbits` low bits of `w` held on the command port, the block Idle, and no reset in the
way, so that the very next step runs it (log 9). -/
def State.withFetchWord (s : State) (nbits w : Nat) : State :=
  { s with phase := .idle, resets := [], commands := BitVec.ofNat 72 (w % 2 ^ nbits) :: s.commands }

end Sys2Proof.Machine
end

