-- ==== Sys2Proof/Machine/Assembler.lean ====
section
/-! DEFINITION. The assembler syntax (30_encoding.md R73, R74): one line of text to a command, refusing what does not
fit. What the rules leave open of spacing and letters is log 16. -/

namespace Sys2Proof.Machine

/-! ### Operands and their limits (30_encoding.md R73) -/

/-- A byte operand: 0..255. -/
def byteOperand (v : Int) : Option Byte :=
  if 0 ≤ v ∧ v ≤ 255 then some (BitVec.ofInt 8 v) else none

/-- VAL, SLOT or RAW: [-2^31, 2^31-1]. -/
def s32Operand (v : Int) : Option Int := if inS32 v then some v else none

/-- MASK: [-2^31, 2^32-1], Bf = mask mod 2^32. -/
def maskOperand (v : Int) : Option Word32 :=
  if -2 ^ 31 ≤ v ∧ v ≤ 2 ^ 32 - 1 then some (BitVec.ofInt 32 v) else none

/-- The bytes of a list, each in 0..255. -/
def byteOperands : List Int → Option (List Byte)
  | [] => some []
  | v :: vs =>
    match byteOperand v, byteOperands vs with
    | some b, some bs => some (b :: bs)
    | _, _ => none

/-- LEN is the number of items, at most 255; Ei is item i for i < min(LEN, 4), and 0 otherwise. -/
def elementsOperand (vs : List Int) : Option Elements :=
  if vs.length ≤ 255 then
    (byteOperands vs).map fun bs =>
      { len := BitVec.ofNat 8 vs.length, e0 := bs.getD 0 0, e1 := bs.getD 1 0, e2 := bs.getD 2 0, e3 := bs.getD 3 0 }
  else none

/-- The code of a character: its ASCII code (92_eei_decisions.md D14). -/
def charCode (c : Char) : Option Int := if c.toNat < 128 then some c.toNat else none

/-- The codes of a string literal (30_encoding.md R74). -/
def charCodes : List Char → Option (List Int)
  | [] => some []
  | c :: cs =>
    match charCode c, charCodes cs with
    | some v, some vs => some (v :: vs)
    | _, _ => none

/-! ### Tokens -/

/-- The tokens of a line. -/
inductive AsmToken where
  | name (letters : List Char)
  | num (v : Int)
  | text (letters : List Char)
  | comma
  | listOpen
  | listClose
deriving DecidableEq, Repr

/-- The token being read; letters in reverse. -/
inductive LexState where
  | between
  | inName (acc : List Char)
  | afterMinus
  | afterZero
  | inDecimal (negative : Bool) (v : Nat)
  | afterHexMark
  | inHex (v : Nat)
  | inText (acc : List Char)
  | textDone (acc : List Char)
  | afterQuote
  | inChar (c : Char)
  | charDone (c : Char)
deriving DecidableEq, Repr

/-- The digits of a number, each at the place of its value (30_encoding.md R73). -/
def digitChars : List Char := "0123456789ABCDEF".toList

/-- The value of a digit in a base up to 16, small letters as capitals (30_encoding.md R73; log 16). -/
def digitValue (base : Nat) (c : Char) : Option Nat := (digitChars.take base).idxOf? c.toUpper

/-- The value of a hexadecimal digit. -/
def hexDigit (c : Char) : Option Nat := digitValue 16 c

/-- The value of a decimal digit. -/
def decimalDigit (c : Char) : Option Nat := digitValue 10 c

/-- The double quote, which opens and closes a string literal. -/
def textQuote : Char := Char.ofNat 34

/-- The single quote, which opens and closes a character literal. -/
def charQuote : Char := Char.ofNat 39

/-- The token with one more character, none where the character does not belong to it. -/
def LexState.grow : LexState → Char → Option LexState
  | .between, _ => none
  | .inName acc, c => if c.isAlphanum || c = '_' then some (.inName (c :: acc)) else none
  | .afterMinus, c => (decimalDigit c).map (.inDecimal true)
  | .afterZero, c => if c = 'x' then some .afterHexMark else (decimalDigit c).map (.inDecimal false)
  | .inDecimal negative v, c => (decimalDigit c).map fun d => .inDecimal negative (10 * v + d)
  | .afterHexMark, c => (hexDigit c).map .inHex
  | .inHex v, c => (hexDigit c).map fun d => .inHex (16 * v + d)
  | .inText acc, c => if c = textQuote then some (.textDone acc) else some (.inText (c :: acc))
  | .textDone _, _ => none
  | .afterQuote, c => some (.inChar c)
  | .inChar c₀, c => if c = charQuote then some (.charDone c₀) else none
  | .charDone _, _ => none

/-- The finished token, none where it is incomplete. -/
def LexState.flush : LexState → Option (List AsmToken)
  | .between => some []
  | .inName acc => some [.name acc.reverse]
  | .afterMinus => none
  | .afterZero => some [.num 0]
  | .inDecimal negative v => some [.num (if negative then -(v : Int) else v)]
  | .afterHexMark => none
  | .inHex v => some [.num v]
  | .inText _ => none
  | .textDone acc => some [.text acc.reverse]
  | .afterQuote => none
  | .inChar _ => none
  | .charDone c => (charCode c).map fun v => [.num v]

/-- What a character opens between two tokens. -/
def openToken (c : Char) : Option (List AsmToken × LexState) :=
  if c = ' ' then some ([], .between)
  else if c = ',' then some ([.comma], .between)
  else if c = '[' then some ([.listOpen], .between)
  else if c = ']' then some ([.listClose], .between)
  else if c = '-' then some ([], .afterMinus)
  else if c = '0' then some ([], .afterZero)
  else if c = textQuote then some ([], .inText [])
  else if c = charQuote then some ([], .afterQuote)
  else if c.isDigit then (decimalDigit c).map fun d => ([], .inDecimal false d)
  else if c.isAlpha then some ([], .inName [c])
  else none

/-- The tokens of the characters left, after the token being read. -/
def lex : LexState → List Char → Option (List AsmToken)
  | st, [] => st.flush
  | st, c :: cs =>
    match st.grow c with
    | some st' => lex st' cs
    | none =>
      match st.flush, openToken c with
      | some before, some (opened, st') => (lex st' cs).map fun rest => before ++ opened ++ rest
      | _, _ => none

/-! ### Lines -/

/-- The items of a list that is not empty, up to its closing bracket at the end of the line. -/
def listItems : List AsmToken → Option (List Int)
  | [.num v, .listClose] => some [v]
  | .num v :: .comma :: rest => (listItems rest).map (v :: ·)
  | _ => none

/-- The element operands of SHOW_TEXT and SHOW_SEGMENTS: a list in brackets (30_encoding.md R73). -/
def listOperand : List AsmToken → Option (List Int)
  | [.listOpen, .listClose] => some []
  | .listOpen :: rest => listItems rest
  | _ => none

/-- The operand of SHOW_TEXT: a list or the pseudo-instruction's string literal (30_encoding.md R74). -/
def textOperand : List AsmToken → Option (List Int)
  | [.text letters] => charCodes letters
  | tokens => listOperand tokens

/-- WRAP or BOUNDED (30_encoding.md R73). -/
def modeOperand (letters : List Char) : Option Mode :=
  if letters = "WRAP".toList then some .wrap
  else if letters = "BOUNDED".toList then some .bounded
  else none

/-- The operands of REDUCE and RENDER_POS (30_encoding.md R73). -/
def positionOperands (make : Int → Mode → Byte → Instr) : List AsmToken → Option Instr
  | [.num raw, .comma, .name letters, .comma, .num cap] =>
    match s32Operand raw, modeOperand letters, byteOperand cap with
    | some r, some m, some c => some (make r m c)
    | _, _, _ => none
  | _ => none

/-- The operand of SET_BRIGHTNESS, SCALE and RENDER (30_encoding.md R73). -/
def signedOperand (make : Int → Instr) : List AsmToken → Option Instr
  | [.num v] => (s32Operand v).map make
  | _ => none

/-- A command without operands (30_encoding.md R73). -/
def noOperand (i : Instr) : List AsmToken → Option Instr
  | [] => some i
  | _ => none

/-- The operand of LOOKUP (30_encoding.md R73). -/
def symbolOperand : List AsmToken → Option Instr
  | [.num sym] => (byteOperand sym).map .lookup
  | _ => none

/-- The operands of WRITE_DIGIT (30_encoding.md R73). -/
def digitOperands : List AsmToken → Option Instr
  | [.num slot, .comma, .num mask] =>
    match s32Operand slot, maskOperand mask with
    | some a, some bf => some (.writeDigit a bf)
    | _, _ => none
  | _ => none

/-- The mnemonics in the order of their opcodes, from 0x01 (30_encoding.md R65). -/
def mnemonics : List (List Char) :=
  ["LOOKUP".toList, "SET_BRIGHTNESS".toList, "POWER_ON".toList, "POWER_OFF".toList, "CLEAR".toList,
    "WRITE_DIGIT".toList, "SHOW_TEXT".toList, "SHOW_SEGMENTS".toList, "SCALE".toList, "RENDER".toList,
    "REDUCE".toList, "RENDER_POS".toList]

/-- The opcode of a mnemonic, an undefined one for other letters. -/
def mnemonicOpcode (m : List Char) : Nat := mnemonics.idxOf m + 1

/-- The command of a mnemonic and its operand tokens (30_encoding.md R73). -/
def assembleTokens : List AsmToken → Option Instr
  | .name m :: args =>
    match mnemonicOpcode m with
    | 0x01 => symbolOperand args
    | 0x02 => signedOperand .setBrightness args
    | 0x03 => noOperand .powerOn args
    | 0x04 => noOperand .powerOff args
    | 0x05 => noOperand .clear args
    | 0x06 => digitOperands args
    | 0x07 => ((textOperand args).bind elementsOperand).map .showText
    | 0x08 => ((listOperand args).bind elementsOperand).map .showSegments
    | 0x09 => signedOperand .scale args
    | 0x0A => signedOperand .render args
    | 0x0B => positionOperands .reduce args
    | 0x0C => positionOperands .renderPos args
    | _ => none
  | _ => none

/-- The command of one line of assembly text, none where the assembler refuses it (30_encoding.md R73). -/
def assemble (line : String) : Option Instr := (lex .between line.toList).bind assembleTokens

/-- The command word of one line of assembly text. -/
def assembleWord (line : String) : Option CmdWord := (assemble line).map encode

end Sys2Proof.Machine
end

