-- ==== Sys2Proof/Safety.lean ====
section
/-! DEFINITION. The terms in which claims about runs are stated: when no reset comes, what commands write, what the
display image must be, and the invariant of the block. -/

namespace Sys2Proof.Machine

/-! ### Inputs -/

/-- The next `n` boundaries pass without a reset (70_reset_and_hazards.md R231; log 5). -/
def noResetWithin (n : Nat) : List Nat → Bool
  | [] => true
  | m :: _ => decide (n ≤ m)

/-- The reset input after `n` boundaries without a reset. -/
def resetsAfter (n : Nat) : List Nat → List Nat
  | [] => []
  | m :: rest => (m - n) :: rest

/-! ### What commands write -/

/-- The masks a four-slot command writes, none for the other commands and for an operand out of range
(41_display_controller.md R125, R127, R128; 42_scale_renderer.md R165, R175). -/
def fourSlotMasks (cfg : Config) : Instr → Option Masks
  | .lookup _ => none
  | .setBrightness _ => none
  | .powerOn => none
  | .powerOff => none
  | .clear => some Masks.blank
  | .writeDigit _ _ => none
  | .showText t => some (elementMasks (seg cfg) t)
  | .showSegments t => some (elementMasks id t)
  | .scale _ => none
  | .render count => if countLegal count then some (scaleMasks count.toNat) else none
  | .reduce _ _ _ => none
  | .renderPos raw mode cap =>
    if capLegal cap then some (scaleMasks (reducePos raw mode cap).toNat) else none

/-- The control commands (41_display_controller.md section 2). -/
def isControl : Instr → Bool
  | .setBrightness _ => true
  | .powerOn => true
  | .powerOff => true
  | .lookup _ => false
  | .clear => false
  | .writeDigit _ _ => false
  | .showText _ => false
  | .showSegments _ => false
  | .scale _ => false
  | .render _ => false
  | .reduce _ _ _ => false
  | .renderPos _ _ _ => false

/-- The registers after the register write of a command (41_display_controller.md R122–R124); the other commands
write none. -/
def registerWrite (i : Instr) (s : State) : State :=
  match i with
  | .setBrightness val => { s with bri := BitVec.ofInt 3 (clamp val 0 7) }
  | .powerOn => { s with pwr := 1 }
  | .powerOff => { s with pwr := 0 }
  | .lookup _ => s
  | .clear => s
  | .writeDigit _ _ => s
  | .showText _ => s
  | .showSegments _ => s
  | .scale _ => s
  | .render _ => s
  | .reduce _ _ _ => s
  | .renderPos _ _ _ => s

/-- The transactions a command lists, in order, in the state after its register write: one to CTRL_ADDR, one to a
digit, four to the digits, or none (20_memory.md R40, R41). -/
def listedWrites (i : Instr) (s : State) : List Write :=
  match i with
  | .lookup _ => []
  | .setBrightness _ => [controlWrite s]
  | .powerOn => [controlWrite s]
  | .powerOff => [controlWrite s]
  | .clear => slotWrites s.cfg Masks.blank
  | .writeDigit slot mask => if slotLegal slot then [⟨digitAddr s.cfg slot.toNat, mask.setWidth 8, 0⟩] else []
  | .showText t => slotWrites s.cfg (elementMasks (seg s.cfg) t)
  | .showSegments t => slotWrites s.cfg (elementMasks id t)
  | .scale _ => []
  | .render count => if countLegal count then slotWrites s.cfg (scaleMasks count.toNat) else []
  | .reduce _ _ _ => []
  | .renderPos raw mode cap =>
    if capLegal cap then slotWrites s.cfg (scaleMasks (reducePos raw mode cap).toNat) else []

/-- The trace event of a listed transaction with its result. -/
def Write.event (w : Write) (r : BusResult) : Event := .transaction ⟨w.addr, w.data, r⟩

/-- A four-slot command that completes: four transactions in slot order, all ok, then the response (OK, 0). -/
def fourSlotsDone (m : Masks) (rest : List BusResult) (s : State) : State :=
  { s with
    log := s.log ++
      [.transaction ⟨digitAddr s.cfg 0, m.m0, .ok⟩, .transaction ⟨digitAddr s.cfg 1, m.m1, .ok⟩,
        .transaction ⟨digitAddr s.cfg 2, m.m2, .ok⟩, .transaction ⟨digitAddr s.cfg 3, m.m3, .ok⟩,
        .response (responseWord .ok 0)]
    image := (((s.image.write (digitAddr s.cfg 0).toNat m.m0).write (digitAddr s.cfg 1).toNat m.m1).write
      (digitAddr s.cfg 2).toNat m.m2).write (digitAddr s.cfg 3).toNat m.m3
    answers := rest
    resets := resetsAfter 4 s.resets
    phase := .idle }

/-- A command of one transaction that completes: the transaction, ok, then the response (OK, 0). -/
def oneWriteDone (addr data : Byte) (rest : List BusResult) (s : State) : State :=
  { s with
    log := s.log ++ [.transaction ⟨addr, data, .ok⟩, .response (responseWord .ok 0)]
    image := s.image.write addr.toNat data
    answers := rest
    resets := resetsAfter 1 s.resets
    phase := .idle }

/-! ### Command words -/

/-- The illegal words, bit for bit as 30_encoding.md R66, R67 and R69 list them. -/
def illegalWord (w : CmdWord) : Prop :=
  let opc := (field w 0 8).toNat
  opc = 0x00 ∨ 0x0D ≤ opc ∨
  (opc ∈ [0x03, 0x04, 0x05] ∧ field w 8 64 ≠ 0) ∨
  (opc = 0x01 ∧ field w 16 56 ≠ 0) ∨
  (opc ∈ [0x02, 0x09, 0x0A] ∧ field w 40 32 ≠ 0) ∨
  (opc ∈ [0x07, 0x08] ∧ field w 48 24 ≠ 0) ∨
  (opc ∈ [0x0B, 0x0C] ∧ (field w 56 16 ≠ 0 ∨ 2 ≤ (field w 40 8).toNat))

/-- The items of a list with their commas. -/
def itemTokens : List Int → List AsmToken
  | [] => []
  | [v] => [.num v]
  | v :: u :: vs => .num v :: .comma :: itemTokens (u :: vs)

/-- The tokens of a list in brackets (30_encoding.md R73). -/
def listTokens (vs : List Int) : List AsmToken := .listOpen :: (itemTokens vs ++ [.listClose])

/-! ### The display image the trace implies -/

/-- What is known of the byte at `a` after these transactions, when `known` was known before: the last byte
successfully written, nothing after a failed write (10_state.md R27, 20_memory.md R48). -/
def knownByte (a : Byte) : Option Byte → List Transaction → Option Byte
  | known, [] => known
  | known, t :: ts =>
    knownByte a (if t.addr = a then (match t.result with | .ok => some t.data | .fail => none) else known) ts

/-! ### The invariant -/

/-- 20_memory.md R41 and R44 of one transaction: one of the five addresses, and at CTRL_ADDR one of the sixteen control
bytes. -/
def transactionLegal (cfg : Config) (t : Transaction) : Prop :=
  t.addr ∈ busAddrs cfg ∧ (t.addr = cfg.ctrlAddr → ∃ pwr bri, t.data = ctrlByte pwr bri)

/-- What Executing(cmd, k) means between steps (10_state.md R29): a command a word can carry, its register already
written, `k` transactions issued, all but the last just returned ok, the last waiting for its answer. -/
def phaseLegal (s : State) : Prop :=
  match s.phase with
  | .idle => True
  | .executing cmd k =>
    cmd.wf = true ∧ registerWrite cmd s = s ∧ 1 ≤ k ∧ k ≤ (listedWrites cmd s).length ∧
      ∃ before, s.log = before ++ ((listedWrites cmd s).take (k - 1)).map (·.event .ok)

/-- The invariant of the block and of what it observes. -/
structure State.Inv (s : State) : Prop where
  /-- The display image is in its canonical form. -/
  image_wf : s.image.wf
  /-- 10_state.md R27, 20_memory.md R48: the image is what the trace implies. -/
  image_known : ∀ a, s.imageAt a = knownByte a none s.trace
  /-- 20_memory.md R41, 41_display_controller.md R132. -/
  trace_legal : ∀ t ∈ s.trace, transactionLegal s.cfg t
  /-- 10_state.md R29. -/
  phase_legal : phaseLegal s
  /-- 60_exceptions.md R201: no status above 4 is ever produced. -/
  responses_legal : ∀ r ∈ s.responses, (responseStatus r).toNat ≤ 4

end Sys2Proof.Machine
end

