-- ==== Sys2Proof/Certificates/Slice0/Obligations.lean ====
section
/-! DEFINITION. The statements about the block, each from a rule of spec/ named in its docstring. -/

open Sys2Proof Sys2Proof.Machine

/-! ### Bus addresses and the control byte -/

/-- 20_memory.md R44: bit 0 is PWR, bits 6:4 are BRI, bits 3:1 and 7 are 0, and exactly sixteen bytes arise. -/
def Obligations.ControlByteFields : Prop :=
  (∀ (pwr : BitVec 1) (bri : BitVec 3),
    ctrlByte pwr bri = pwr.setWidth 8 ||| (bri.setWidth 8 <<< 4) ∧
    (ctrlByte pwr bri).extractLsb' 0 1 = pwr ∧ (ctrlByte pwr bri).extractLsb' 1 3 = 0 ∧
    (ctrlByte pwr bri).extractLsb' 4 3 = bri ∧ (ctrlByte pwr bri).extractLsb' 7 1 = 0) ∧
  ∀ b : Byte, (∃ pwr bri, b = ctrlByte pwr bri) ↔
    b ∈ ([0x00, 0x01, 0x10, 0x11, 0x20, 0x21, 0x30, 0x31, 0x40, 0x41, 0x50, 0x51, 0x60, 0x61, 0x70, 0x71] : List Byte)

/-- 20_memory.md R42: the address of slot s is DIGIT_BASE + s, never past 0xFF, and a slot outside 0..3 is rejected and
never written. -/
def Obligations.DigitAddressesDoNotWrap : Prop :=
  (∀ (cfg : Config) (slot : Nat), slot ≤ 3 →
    digitAddr cfg slot = cfg.digitBase + BitVec.ofNat 8 slot ∧
    (digitAddr cfg slot).toNat = cfg.digitBase.toNat + slot) ∧
  ∀ (slot : Int) (mask : Word32) (s : State), slot < 0 ∨ 3 < slot →
    ∃ t, exec (.writeDigit slot mask) s = .next t ∧ t.trace = s.trace ∧ t.image = s.image

/-- 20_memory.md R41 with 00_scope.md R8: the block has five bus registers, at five different addresses. -/
def Obligations.BusRegistersAreDistinct : Prop :=
  ∀ cfg : Config, (busAddrs cfg).Nodup ∧ (busAddrs cfg).length = 5

/-! ### Encoding -/

/-- 30_encoding.md R61: the word is made of B0..B8 little-endian, B0 first. -/
def Obligations.CommandWordIsLittleEndian : Prop :=
  ∀ b0 b1 b2 b3 b4 b5 b6 b7 b8 : Byte, ∃ w,
    wordOfBytes [b0, b1, b2, b3, b4, b5, b6, b7, b8] = some w ∧
    w = b0.setWidth 72 ||| (b1.setWidth 72 <<< 8) ||| (b2.setWidth 72 <<< 16) ||| (b3.setWidth 72 <<< 24) |||
      (b4.setWidth 72 <<< 32) ||| (b5.setWidth 72 <<< 40) ||| (b6.setWidth 72 <<< 48) ||| (b7.setWidth 72 <<< 56) |||
      (b8.setWidth 72 <<< 64) ∧
    bytesOfWord w = [b0, b1, b2, b3, b4, b5, b6, b7, b8] ∧
    ∀ k, k ≤ 8 → (bytesOfWord w)[k]? = some (w.extractLsb' (8 * k) 8)

/-- 30_encoding.md sections 2–4: decoding the word of any command a word can carry gives it back. -/
def Obligations.DecodeOfEncode : Prop :=
  ∀ i : Instr, i.wf = true → decode (encode i) = .ok i

/-- 30_encoding.md sections 2–5: a word has one meaning, and no bit of a legal word is dropped. -/
def Obligations.EncodeOfDecode : Prop :=
  ∀ (w : CmdWord) (i : Instr), decode w = .ok i → i.wf = true ∧ encode i = w

/-- 30_encoding.md section 5: exactly the words with an undefined opcode, a reserved bit or MODE above 1 are illegal. -/
def Obligations.IllegalWordsExactly : Prop :=
  ∀ w : CmdWord, illegalWord w ↔ ∃ r, decode w = .error r

/-- 95_test_vectors.md sections 1 and 2: one word for each command, byte by byte. -/
def Obligations.SampleWordsDecode : Prop :=
  decodeBytes [0x01, 0x31, 0, 0, 0, 0, 0, 0, 0] = .ok (.lookup 0x31) ∧
  decodeBytes [0x02, 0xFB, 0xFF, 0xFF, 0xFF, 0, 0, 0, 0] = .ok (.setBrightness (-5)) ∧
  decodeBytes [0x03, 0, 0, 0, 0, 0, 0, 0, 0] = .ok .powerOn ∧
  decodeBytes [0x04, 0, 0, 0, 0, 0, 0, 0, 0] = .ok .powerOff ∧
  decodeBytes [0x05, 0, 0, 0, 0, 0, 0, 0, 0] = .ok .clear ∧
  decodeBytes [0x06, 0x02, 0, 0, 0, 0xFF, 0x01, 0, 0] = .ok (.writeDigit 2 0x1FF) ∧
  decodeBytes [0x07, 0x31, 0x32, 0x99, 0xAA, 0x02, 0, 0, 0] = .ok (.showText ⟨2, 0x31, 0x32, 0x99, 0xAA⟩) ∧
  decodeBytes [0x08, 0x80, 0xFF, 0x01, 0, 0x03, 0, 0, 0] = .ok (.showSegments ⟨3, 0x80, 0xFF, 0x01, 0⟩) ∧
  decodeBytes [0x09, 0x0B, 0, 0, 0, 0, 0, 0, 0] = .ok (.scale 11) ∧
  decodeBytes [0x0A, 0, 0, 0, 0x80, 0, 0, 0, 0] = .ok (.render (-2147483648)) ∧
  decodeBytes [0x0B, 0x28, 0, 0, 0, 0x01, 0x1F, 0, 0] = .ok (.reduce 40 .bounded 31) ∧
  decodeBytes [0x0C, 0xFF, 0xFF, 0xFF, 0xFF, 0, 0x1F, 0, 0] = .ok (.renderPos (-1) .wrap 31)

/-- 30_encoding.md section 7: every form of R73, its operands taken exactly where they fit. -/
def Obligations.AssemblerTakesWhatFits : Prop :=
  (∀ args : List AsmToken,
    assembleTokens (.name "POWER_ON".toList :: args) = (if args = [] then some .powerOn else none) ∧
    assembleTokens (.name "POWER_OFF".toList :: args) = (if args = [] then some .powerOff else none) ∧
    assembleTokens (.name "CLEAR".toList :: args) = (if args = [] then some .clear else none)) ∧
  (∀ v : Int,
    assembleTokens [.name "LOOKUP".toList, .num v] =
      (if 0 ≤ v ∧ v ≤ 255 then some (.lookup (BitVec.ofInt 8 v)) else none) ∧
    assembleTokens [.name "SET_BRIGHTNESS".toList, .num v] =
      (if -2147483648 ≤ v ∧ v ≤ 2147483647 then some (.setBrightness v) else none) ∧
    assembleTokens [.name "SCALE".toList, .num v] =
      (if -2147483648 ≤ v ∧ v ≤ 2147483647 then some (.scale v) else none) ∧
    assembleTokens [.name "RENDER".toList, .num v] =
      (if -2147483648 ≤ v ∧ v ≤ 2147483647 then some (.render v) else none)) ∧
  (∀ slot mask : Int,
    assembleTokens [.name "WRITE_DIGIT".toList, .num slot, .comma, .num mask] =
      (if (-2147483648 ≤ slot ∧ slot ≤ 2147483647) ∧ -2147483648 ≤ mask ∧ mask ≤ 4294967295 then
        some (.writeDigit slot (BitVec.ofInt 32 mask)) else none)) ∧
  (∀ (raw cap : Int) (letters : List Char) (mode : Mode),
    (letters = "WRAP".toList ∧ mode = .wrap) ∨ (letters = "BOUNDED".toList ∧ mode = .bounded) →
    assembleTokens [.name "REDUCE".toList, .num raw, .comma, .name letters, .comma, .num cap] =
      (if (-2147483648 ≤ raw ∧ raw ≤ 2147483647) ∧ 0 ≤ cap ∧ cap ≤ 255 then
        some (.reduce raw mode (BitVec.ofInt 8 cap)) else none) ∧
    assembleTokens [.name "RENDER_POS".toList, .num raw, .comma, .name letters, .comma, .num cap] =
      (if (-2147483648 ≤ raw ∧ raw ≤ 2147483647) ∧ 0 ≤ cap ∧ cap ≤ 255 then
        some (.renderPos raw mode (BitVec.ofInt 8 cap)) else none)) ∧
  ∀ (items : List Int) (elems : Elements),
    elems =
      { len := BitVec.ofNat 8 items.length
        e0 := BitVec.ofInt 8 (items.getD 0 0), e1 := BitVec.ofInt 8 (items.getD 1 0)
        e2 := BitVec.ofInt 8 (items.getD 2 0), e3 := BitVec.ofInt 8 (items.getD 3 0) } →
    assembleTokens (.name "SHOW_TEXT".toList :: listTokens items) =
      (if (∀ v ∈ items, 0 ≤ v ∧ v ≤ 255) ∧ items.length ≤ 255 then some (.showText elems) else none) ∧
    assembleTokens (.name "SHOW_SEGMENTS".toList :: listTokens items) =
      (if (∀ v ∈ items, 0 ≤ v ∧ v ≤ 255) ∧ items.length ≤ 255 then some (.showSegments elems) else none)

/-- 30_encoding.md section 7: every command the assembler makes, from any tokens, is one a word can carry. -/
def Obligations.AssembledCommandsFit : Prop :=
  ∀ (tokens : List AsmToken) (i : Instr), assembleTokens tokens = some i → i.wf = true

/-- 30_encoding.md R74: SHOW_TEXT with a string literal is SHOW_TEXT with the list of its codes, and no other form
takes a string literal. -/
def Obligations.TextLiteralIsItsCodes : Prop :=
  (∀ letters : List Char, (∀ c ∈ letters, c.toNat < 128) →
    assembleTokens [.name "SHOW_TEXT".toList, .text letters] =
      assembleTokens (.name "SHOW_TEXT".toList :: listTokens (letters.map fun c => (c.toNat : Int)))) ∧
  assembleTokens [.name "SHOW_TEXT".toList, .text ['1', '2']] = some (.showText ⟨2, 0x31, 0x32, 0, 0⟩) ∧
  ∀ (m : List Char) (before after : List AsmToken) (letters : List Char) (i : Instr),
    assembleTokens (.name m :: (before ++ .text letters :: after)) = some i →
      m = "SHOW_TEXT".toList ∧ before = [] ∧ after = []

/-- 30_encoding.md R72: STATUS stands in bits 7:0 of the response and VALUE in bits 39:8, and the codes are those of
60_exceptions.md R201. -/
def Obligations.ResponseWordFields : Prop :=
  (∀ (status : Status) (value : Word32),
    (responseWord status value).extractLsb' 0 8 = status.code ∧
    (responseWord status value).extractLsb' 8 32 = value) ∧
  Status.code .ok = 0 ∧ Status.code .invalidSlot = 1 ∧ Status.code .outOfRange = 2 ∧
  Status.code .busWriteFailure = 3 ∧ Status.code .illegalCommand = 4

/-! ### Segment codec -/

/-- 40_segment_codec.md R101: Seg is total, an unknown symbol is blank, and LOOKUP answers it without side effects. -/
def Obligations.LookupAnswersSegMask : Prop :=
  (∀ (cfg : Config) (sym mask : Byte), tableLookup cfg.segTable sym = some mask → seg cfg sym = mask) ∧
  (∀ (cfg : Config) (sym : Byte), tableLookup cfg.segTable sym = none → seg cfg sym = 0x00) ∧
  ∀ (sym : Byte) (s : State),
    exec (.lookup sym) s =
      .next { s with log := s.log ++ [.response (responseWord .ok ((seg s.cfg sym).setWidth 32))], phase := .idle }

/-! ### Control commands -/

/-- 41_display_controller.md R122: SET_BRIGHTNESS stores the clamped value and sends the control byte. -/
def Obligations.SetBrightnessClampsAndSends : Prop :=
  ∀ (val : Int) (bri : BitVec 3) (s : State) (rest : List BusResult),
    ((val < 0 ∧ bri = 0) ∨ (7 < val ∧ bri = 7) ∨ ((bri.toNat : Int) = val)) →
    s.answers = BusResult.ok :: rest → noResetWithin 1 s.resets = true →
    exec (.setBrightness val) s =
      .next { oneWriteDone s.cfg.ctrlAddr (s.pwr.setWidth 8 ||| (bri.setWidth 8 <<< 4)) rest s with bri := bri }

/-- 41_display_controller.md R123 and R124: POWER_ON and POWER_OFF write PWR and send the control byte, also when PWR
does not change. -/
def Obligations.PowerCommandsWriteAndSend : Prop :=
  ∀ (s : State) (rest : List BusResult), s.answers = BusResult.ok :: rest → noResetWithin 1 s.resets = true →
    exec .powerOn s =
      .next { oneWriteDone s.cfg.ctrlAddr (0x01#8 ||| (s.bri.setWidth 8 <<< 4)) rest s with pwr := 1 } ∧
    exec .powerOff s =
      .next { oneWriteDone s.cfg.ctrlAddr (s.bri.setWidth 8 <<< 4) rest s with pwr := 0 }

/-- 41_display_controller.md R131 with 60_exceptions.md R204: a control command whose transaction fails keeps its
register write, answers BusWriteFailure with CTRL_ADDR and index 0, and leaves no known control byte. -/
def Obligations.ControlFailureKeepsRegister : Prop :=
  ∀ (i : Instr) (s : State) (rest : List BusResult), isControl i = true →
    s.answers = BusResult.fail :: rest → noResetWithin 1 s.resets = true →
    exec i s =
      .next { registerWrite i s with
        log := s.log ++
          [.transaction ⟨s.cfg.ctrlAddr, ctrlByte (registerWrite i s).pwr (registerWrite i s).bri, .fail⟩,
            .response (responseWord .busWriteFailure (s.cfg.ctrlAddr.setWidth 32 <<< 8))]
        image := s.image.forget s.cfg.ctrlAddr.toNat
        answers := rest
        resets := resetsAfter 1 s.resets
        phase := .idle } ∧
    (s.image.wf → ∀ t, exec i s = .next t → t.imageAt s.cfg.ctrlAddr = none)

/-- 41_display_controller.md R130: a control command repeated after an ok first run sends the same control byte. -/
def Obligations.RepeatedControlSendsSameByte : Prop :=
  ∀ (i : Instr) (s : State) (r : BusResult) (rest : List BusResult), isControl i = true →
    s.answers = BusResult.ok :: r :: rest → noResetWithin 2 s.resets = true →
    ∃ t u b, exec i s = .next t ∧ exec i t = .next u ∧
      t.trace = s.trace ++ [⟨s.cfg.ctrlAddr, b, .ok⟩] ∧ u.trace = t.trace ++ [⟨s.cfg.ctrlAddr, b, r⟩] ∧
      u.pwr = t.pwr ∧ u.bri = t.bri

/-! ### Digit commands -/

/-- 41_display_controller.md R125: CLEAR writes 0x00 to all four slots in slot order. -/
def Obligations.ClearWritesFourZeros : Prop :=
  ∀ (s : State) (rest : List BusResult),
    s.answers = BusResult.ok :: .ok :: .ok :: .ok :: rest → noResetWithin 4 s.resets = true →
    exec .clear s = .next (fourSlotsDone ⟨0x00, 0x00, 0x00, 0x00⟩ rest s)

/-- 41_display_controller.md R126: WRITE_DIGIT writes the low byte of MASK to its slot and to no other; a failed write
answers BusWriteFailure with the slot's address and index 0. -/
def Obligations.WriteDigitWritesOneSlot : Prop :=
  ∀ (slot : Int) (mask : Word32) (s : State) (rest : List BusResult), 0 ≤ slot → slot ≤ 3 →
    noResetWithin 1 s.resets = true →
    (s.answers = BusResult.ok :: rest →
      exec (.writeDigit slot mask) s =
        .next (oneWriteDone (digitAddr s.cfg slot.toNat) (mask.extractLsb' 0 8) rest s)) ∧
    (s.answers = BusResult.fail :: rest →
      exec (.writeDigit slot mask) s =
        .next { s with
          log := s.log ++
            [.transaction ⟨digitAddr s.cfg slot.toNat, mask.extractLsb' 0 8, .fail⟩,
              .response (responseWord .busWriteFailure ((digitAddr s.cfg slot.toNat).setWidth 32 <<< 8))]
          image := s.image.forget (digitAddr s.cfg slot.toNat).toNat
          answers := rest
          resets := resetsAfter 1 s.resets
          phase := .idle })

/-- 60_exceptions.md R202: WRITE_DIGIT raises InvalidSlot with the 32 bits of A, before any transaction, exactly on
the slots outside 0..3, no other command answers InvalidSlot, and the slots of the four-slot commands are always 0..3. -/
def Obligations.InvalidSlotOnlyFromWriteDigit : Prop :=
  (∀ (slot : Int) (mask : Word32) (s : State), slot < 0 ∨ 3 < slot →
    exec (.writeDigit slot mask) s =
      .next { s with log := s.log ++ [.response (responseWord .invalidSlot (BitVec.ofInt 32 slot))], phase := .idle }) ∧
  (∀ (i : Instr) (s t : State) (r : Response), exec i s = .next t → t.responses = s.responses ++ [r] →
    responseStatus r = 1 → ∃ slot mask, i = .writeDigit slot mask ∧ (slot < 0 ∨ 3 < slot)) ∧
  ∀ (i : Instr) (s t : State) (m : Masks) (x : Transaction), exec i s = .next t → fourSlotMasks s.cfg i = some m →
    x ∈ t.trace.drop s.trace.length → ∃ k, k ≤ 3 ∧ x.addr = digitAddr s.cfg k

/-- 41_display_controller.md R127: SHOW_TEXT writes the looked-up masks of the present elements and 0x00 to the other
slots; LEN above 4 acts as 4. -/
def Obligations.ShowTextWritesLookedUpMasks : Prop :=
  ∀ (t : Elements) (s : State) (rest : List BusResult),
    s.answers = BusResult.ok :: .ok :: .ok :: .ok :: rest → noResetWithin 4 s.resets = true →
    exec (.showText t) s =
      .next (fourSlotsDone
        ⟨if 1 ≤ t.len.toNat then seg s.cfg t.e0 else 0x00, if 2 ≤ t.len.toNat then seg s.cfg t.e1 else 0x00,
          if 3 ≤ t.len.toNat then seg s.cfg t.e2 else 0x00, if 4 ≤ t.len.toNat then seg s.cfg t.e3 else 0x00⟩ rest s)

/-- 41_display_controller.md R128: SHOW_SEGMENTS writes the masks of the present elements and 0x00 to the other slots. -/
def Obligations.ShowSegmentsWritesRawMasks : Prop :=
  ∀ (t : Elements) (s : State) (rest : List BusResult),
    s.answers = BusResult.ok :: .ok :: .ok :: .ok :: rest → noResetWithin 4 s.resets = true →
    exec (.showSegments t) s =
      .next (fourSlotsDone
        ⟨if 1 ≤ t.len.toNat then t.e0 else 0x00, if 2 ≤ t.len.toNat then t.e1 else 0x00,
          if 3 ≤ t.len.toNat then t.e2 else 0x00, if 4 ≤ t.len.toNat then t.e3 else 0x00⟩ rest s)

/-- 40_segment_codec.md R103: the mask SHOW_TEXT writes for a present element is always the VALUE[7:0] LOOKUP returns for
its symbol: in every run of the command from its start, in every run that goes on after waiting, and with every
transaction ok each present element is written. -/
def Obligations.TextMaskIsLookupMask : Prop :=
  (∀ (e : Elements) (s t : State) (i : Nat) (x : Transaction), exec (.showText e) s = .next t → i < min e.len.toNat 4 →
    t.trace[s.trace.length + i]? = some x →
    ∃ u r, exec (.lookup (elementByte e i)) s = .next u ∧ u.responses = s.responses ++ [r] ∧
      x.addr = digitAddr s.cfg i ∧ x.data = (responseValue r).extractLsb' 0 8) ∧
  (∀ (e : Elements) (k : Nat) (s t : State) (i : Nat) (x : Transaction), s.phase = .executing (.showText e) k →
    step s = .next t → k - 1 + i < min e.len.toNat 4 → t.trace[s.trace.length + i]? = some x →
    ∃ u r, exec (.lookup (elementByte e (k - 1 + i))) s = .next u ∧ u.responses = s.responses ++ [r] ∧
      x.addr = digitAddr s.cfg (k - 1 + i) ∧ x.data = (responseValue r).extractLsb' 0 8) ∧
  ∀ (e : Elements) (s : State) (rest : List BusResult) (i : Nat), i < min e.len.toNat 4 →
    s.answers = BusResult.ok :: .ok :: .ok :: .ok :: rest → noResetWithin 4 s.resets = true →
    ∃ t u r, exec (.showText e) s = .next t ∧
      exec (.lookup (elementByte e i)) s = .next u ∧ u.responses = s.responses ++ [r] ∧
      t.trace[s.trace.length + i]? = some ⟨digitAddr s.cfg i, (responseValue r).extractLsb' 0 8, .ok⟩

/-! ### Linear-scale converter -/

/-- 42_scale_renderer.md R162: the closed form of the scale masks. -/
def Obligations.ScaleMaskClosedForm : Prop :=
  ∀ count s : Nat, count ≤ 31 → s ≤ 3 →
    ((scaleMasks count).get s).toNat = 2 ^ (clamp ((count : Int) - 8 * (3 - s)) 0 8).toNat - 1

/-- 42_scale_renderer.md R164 with R160 and R161: SCALE answers the four packed masks of a legal count, slot s in bits
8s+7:8s, without a transaction. -/
def Obligations.ScaleAnswersPackedMasks : Prop :=
  ∀ (count : Nat) (s : State), count ≤ 31 →
    ∃ v : Word32,
      exec (.scale count) s =
        .next { s with log := s.log ++ [.response (responseWord .ok v)], phase := .idle } ∧
      ∀ slot, slot ≤ 3 → v.extractLsb' (8 * slot) 8 =
        if 4 - count / 8 ≤ slot then 0xFF else if slot = 3 - count / 8 then BitVec.ofNat 8 (2 ^ (count % 8) - 1) else 0

/-- 42_scale_renderer.md R163: a count c lights exactly the LEDs 0..c-1 from the low end, LED k being bit k mod 8 of
slot 3 - k div 8, and c bits in all. -/
def Obligations.CountLightsLowLeds : Prop :=
  ∀ count : Nat, count ≤ 31 →
    (∀ k, k < 32 → ((scaleMasks count).get (3 - k / 8)).getLsbD (k % 8) = decide (k < count)) ∧
    (List.range 32).countP (fun k => (scaleMasks count).pack.getLsbD k) = count

/-- 42_scale_renderer.md R165 with R160 and R161: RENDER writes the four masks of a legal count. -/
def Obligations.RenderWritesScaleMasks : Prop :=
  ∀ (count : Nat) (s : State) (rest : List BusResult), count ≤ 31 →
    s.answers = BusResult.ok :: .ok :: .ok :: .ok :: rest → noResetWithin 4 s.resets = true →
    ∃ m : Masks, exec (.render count) s = .next (fourSlotsDone m rest s) ∧
      ∀ slot, slot ≤ 3 → m.get slot =
        if 4 - count / 8 ≤ slot then 0xFF else if slot = 3 - count / 8 then BitVec.ofNat 8 (2 ^ (count % 8) - 1) else 0

/-- 60_exceptions.md R203: OutOfRange comes from an illegal count (info A) and from an illegal capacity (info the
capacity), always before any transaction, and from nothing else: no reduced count and no brightness raises it. -/
def Obligations.OutOfRangeCauses : Prop :=
  (∀ (count : Int) (s : State), count < 0 ∨ 31 < count →
    exec (.scale count) s =
      .next { s with log := s.log ++ [.response (responseWord .outOfRange (BitVec.ofInt 32 count))], phase := .idle } ∧
    exec (.render count) s =
      .next { s with log := s.log ++ [.response (responseWord .outOfRange (BitVec.ofInt 32 count))], phase := .idle }) ∧
  (∀ (raw : Int) (mode : Mode) (cap : Byte) (s : State), cap.toNat < 2 ∨ 32 < cap.toNat →
    exec (.reduce raw mode cap) s =
      .next { s with log := s.log ++ [.response (responseWord .outOfRange (cap.setWidth 32))], phase := .idle } ∧
    exec (.renderPos raw mode cap) s =
      .next { s with log := s.log ++ [.response (responseWord .outOfRange (cap.setWidth 32))], phase := .idle }) ∧
  ∀ (i : Instr) (s t : State) (r : Response), exec i s = .next t → t.responses = s.responses ++ [r] →
    responseStatus r = 2 →
    (∃ count, (i = .scale count ∨ i = .render count) ∧ (count < 0 ∨ 31 < count)) ∨
    ∃ raw mode cap, (i = .reduce raw mode cap ∨ i = .renderPos raw mode cap) ∧ (cap.toNat < 2 ∨ 32 < cap.toNat)

/-- 42_scale_renderer.md R171: the source's wrap formula equals the Wrap reduction whether `%` truncates toward zero
or toward minus infinity. -/
def Obligations.WrapFormulaUnderAnyRemainder : Prop :=
  ∀ (raw : Int) (cap : Byte), 2 ≤ cap.toNat → cap.toNat ≤ 32 →
    (-(cap.toNat : Int) < Int.tmod raw cap.toNat ∧ Int.tmod raw cap.toNat < cap.toNat) ∧
    Int.tmod (Int.tmod raw cap.toNat + cap.toNat) cap.toNat = reducePos raw .wrap cap ∧
    (0 ≤ Int.fmod raw cap.toNat ∧ Int.fmod raw cap.toNat < cap.toNat) ∧
    Int.fmod (Int.fmod raw cap.toNat + cap.toNat) cap.toNat = reducePos raw .wrap cap

/-- 42_scale_renderer.md R176: a reduced count lies in [0, CAP-1] and so in the legal range of ScaleMasks. -/
def Obligations.ReducedCountInRange : Prop :=
  ∀ (raw : Int) (mode : Mode) (cap : Byte), 2 ≤ cap.toNat → cap.toNat ≤ 32 →
    0 ≤ reducePos raw mode cap ∧ reducePos raw mode cap ≤ cap.toNat - 1 ∧ reducePos raw mode cap ≤ 31

/-- 42_scale_renderer.md R174 with R170: REDUCE answers the count, the Euclidean remainder in Wrap mode and the clamp
to [1, CAP-1] in Bounded mode, without a transaction. -/
def Obligations.ReduceAnswersCount : Prop :=
  ∀ (raw count : Int) (mode : Mode) (cap : Byte) (s : State), 2 ≤ cap.toNat → cap.toNat ≤ 32 →
    (match mode with
      | .wrap => 0 ≤ count ∧ count < cap.toNat ∧ ∃ q : Int, raw = q * cap.toNat + count
      | .bounded => (raw < 1 ∧ count = 1) ∨ ((cap.toNat : Int) - 1 < raw ∧ 1 ≤ raw ∧ count = (cap.toNat : Int) - 1) ∨
          (1 ≤ raw ∧ raw ≤ (cap.toNat : Int) - 1 ∧ count = raw)) →
    exec (.reduce raw mode cap) s =
      .next { s with log := s.log ++ [.response (responseWord .ok (BitVec.ofInt 32 count))], phase := .idle }

/-- 42_scale_renderer.md R175: RENDER_POS writes the four masks of the reduced count. -/
def Obligations.RenderPosWritesReducedMasks : Prop :=
  ∀ (raw : Int) (mode : Mode) (cap : Byte) (s : State) (rest : List BusResult), 2 ≤ cap.toNat → cap.toNat ≤ 32 →
    s.answers = BusResult.ok :: .ok :: .ok :: .ok :: rest → noResetWithin 4 s.resets = true →
    exec (.renderPos raw mode cap) s =
      .next (fourSlotsDone (scaleMasks (reducePos raw mode cap).toNat) rest s)

/-- 42_scale_renderer.md R175: RENDER_POS does what REDUCE followed by RENDER with the reduced count does, for every
draw of the transport and every reset, but for the name of the command in the phase. -/
def Obligations.RenderPosIsReduceThenRender : Prop :=
  ∀ (raw : Int) (mode : Mode) (cap : Byte) (s u : State) (v : Word32),
    exec (.reduce raw mode cap) s = .next u → u.responses = s.responses ++ [responseWord .ok v] →
    ∃ t t', exec (.renderPos raw mode cap) s = .next t ∧ exec (.render v.toInt) s = .next t' ∧
      { t with phase := .idle } = { t' with phase := .idle } ∧ (t.phase = .idle ↔ t'.phase = .idle)

/-! ### The sequencer -/

/-- 41_display_controller.md R121 with 60_exceptions.md R204: a four-slot command whose transaction j is the first to
fail issues the transactions 0..j and no other, in slot order, and answers BusWriteFailure with the address of slot j
and index j. -/
def Obligations.FourSlotCommandStopsAtFirstFailure : Prop :=
  ∀ (i : Instr) (s : State) (m : Masks) (j : Nat) (rest : List BusResult),
    fourSlotMasks s.cfg i = some m → j ≤ 3 →
    s.answers = List.replicate j BusResult.ok ++ BusResult.fail :: rest → noResetWithin (j + 1) s.resets = true →
    ∃ t, exec i s = .next t ∧
      t.log = s.log ++ (List.range j).map (fun k => Event.transaction ⟨digitAddr s.cfg k, m.get k, .ok⟩) ++
        [.transaction ⟨digitAddr s.cfg j, m.get j, .fail⟩,
          .response (responseWord .busWriteFailure (((digitAddr s.cfg j).setWidth 32 <<< 8) ||| BitVec.ofNat 32 j))] ∧
      t.phase = .idle ∧ t.pwr = s.pwr ∧ t.bri = s.bri ∧ t.answers = rest

/-- 60_exceptions.md R213: a four-slot command whose transaction j fails answers j; the slots below j hold the new
bytes, slot j holds no known value, and the slots above j and the control register are unchanged. -/
def Obligations.FailureIndexTellsSlots : Prop :=
  ∀ (i : Instr) (s : State) (m : Masks) (j : Nat) (rest : List BusResult),
    fourSlotMasks s.cfg i = some m → j ≤ 3 → s.image.wf →
    s.answers = List.replicate j BusResult.ok ++ BusResult.fail :: rest → noResetWithin (j + 1) s.resets = true →
    ∃ t, exec i s = .next t ∧
      t.responses = s.responses ++
        [responseWord .busWriteFailure (((digitAddr s.cfg j).setWidth 32 <<< 8) ||| BitVec.ofNat 32 j)] ∧
      (∀ k, k < j → t.imageAt (digitAddr s.cfg k) = some (m.get k)) ∧
      t.imageAt (digitAddr s.cfg j) = none ∧
      (∀ k, j < k → k ≤ 3 → t.imageAt (digitAddr s.cfg k) = s.imageAt (digitAddr s.cfg k)) ∧
      t.imageAt s.cfg.ctrlAddr = s.imageAt s.cfg.ctrlAddr

/-- 70_reset_and_hazards.md R231: a reset due after transaction j of a four-slot command, or after the one transaction of
WRITE_DIGIT or of a control command, abandons the command: its transactions stay in the trace, there is no response, PWR
and BRI are the initial ones (a register write is overwritten) and the block is Idle. That a last or a failed transaction
is followed by such a boundary too is the model's inference (log 7). -/
def Obligations.ResetCutsCommandOff : Prop :=
  (∀ (i : Instr) (s : State) (m : Masks) (j : Nat) (r : BusResult) (rest : List BusResult) (resets : List Nat),
    fourSlotMasks s.cfg i = some m → j ≤ 3 →
    s.answers = List.replicate j BusResult.ok ++ r :: rest → s.resets = j :: resets →
    ∃ t, exec i s = .next t ∧
      t.log = s.log ++ (List.range j).map (fun k => Event.transaction ⟨digitAddr s.cfg k, m.get k, .ok⟩) ++
        [.transaction ⟨digitAddr s.cfg j, m.get j, r⟩, .reset] ∧
      t.pwr = s.cfg.initPower ∧ t.bri = s.cfg.initBrightness ∧ t.phase = .idle ∧ t.resets = resets) ∧
  (∀ (slot : Int) (mask : Word32) (s : State) (r : BusResult) (rest : List BusResult) (resets : List Nat),
    0 ≤ slot → slot ≤ 3 → s.answers = r :: rest → s.resets = 0 :: resets →
    ∃ t, exec (.writeDigit slot mask) s = .next t ∧
      t.log = s.log ++ [.transaction ⟨digitAddr s.cfg slot.toNat, mask.extractLsb' 0 8, r⟩, .reset] ∧
      t.pwr = s.cfg.initPower ∧ t.bri = s.cfg.initBrightness ∧ t.phase = .idle ∧ t.resets = resets) ∧
  ∀ (i : Instr) (s : State) (r : BusResult) (rest : List BusResult) (resets : List Nat), isControl i = true →
    s.answers = r :: rest → s.resets = 0 :: resets →
    ∃ t, exec i s = .next t ∧
      t.log = s.log ++
        [.transaction ⟨s.cfg.ctrlAddr, ctrlByte (registerWrite i s).pwr (registerWrite i s).bri, r⟩, .reset] ∧
      t.pwr = s.cfg.initPower ∧ t.bri = s.cfg.initBrightness ∧ t.phase = .idle ∧ t.resets = resets

/-- 20_memory.md R50, R51 and 30_encoding.md R72: a command's run adds to the log at most four transactions, then one
response or one reset or nothing; with a response or a reset the block is Idle, with neither it is Executing that
command with one transaction issued beyond those that have returned. -/
def Obligations.CommandAddsTransactionsThenOneResponse : Prop :=
  ∀ (i : Instr) (s t : State), exec i s = .next t →
    ∃ (ts : List Transaction) (last : List Event), t.log = s.log ++ ts.map Event.transaction ++ last ∧
      ts.length ≤ 4 ∧
      ((∃ r, last = [.response r] ∧ t.phase = .idle) ∨ (last = [.reset] ∧ t.phase = .idle) ∨
        (last = [] ∧ t.phase = .executing i (ts.length + 1) ∧ ts.length ≤ 3 ∧ t.answers = []))

/-- 41_display_controller.md R132: every control byte a command issues is that of the registers right after the
command's register write, also when the transport answers late, and so has no reserved bit set. -/
def Obligations.ControlBytesComeFromRegisters : Prop :=
  (∀ (i : Instr) (s t : State) (x : Transaction), exec i s = .next t → x ∈ t.trace.drop s.trace.length →
    x.addr = s.cfg.ctrlAddr →
    x.data = (registerWrite i s).pwr.setWidth 8 ||| ((registerWrite i s).bri.setWidth 8 <<< 4) ∧
    x.data &&& 0x8E#8 = 0) ∧
  ∀ (cmd : Instr) (k : Nat) (s t : State) (x : Transaction), s.phase = .executing cmd k → step s = .next t →
    x ∈ t.trace.drop s.trace.length → x.addr = s.cfg.ctrlAddr →
    x.data = s.pwr.setWidth 8 ||| (s.bri.setWidth 8 <<< 4) ∧ x.data &&& 0x8E#8 = 0

/-- 20_memory.md R40 and R41: the addresses each command writes. -/
def Obligations.CommandsWriteOnlyTheirAddresses : Prop :=
  ∀ (i : Instr) (s t : State), exec i s = .next t →
    ∃ ts : List Transaction, t.trace = s.trace ++ ts ∧ ∀ x ∈ ts,
      match i with
      | .lookup _ => False
      | .scale _ => False
      | .reduce _ _ _ => False
      | .setBrightness _ => x.addr = s.cfg.ctrlAddr
      | .powerOn => x.addr = s.cfg.ctrlAddr
      | .powerOff => x.addr = s.cfg.ctrlAddr
      | .writeDigit slot _ => 0 ≤ slot ∧ slot ≤ 3 ∧ x.addr = digitAddr s.cfg slot.toNat
      | .clear => ∃ k, k ≤ 3 ∧ x.addr = digitAddr s.cfg k
      | .showText _ => ∃ k, k ≤ 3 ∧ x.addr = digitAddr s.cfg k
      | .showSegments _ => ∃ k, k ≤ 3 ∧ x.addr = digitAddr s.cfg k
      | .render _ => ∃ k, k ≤ 3 ∧ x.addr = digitAddr s.cfg k
      | .renderPos _ _ _ => ∃ k, k ≤ 3 ∧ x.addr = digitAddr s.cfg k

/-- 10_state.md R26 and 41_display_controller.md R130: what a command that is no control command adds to the log does
not depend on PWR, BRI, the image or the past, only on the command, the parameters and the inputs. -/
def Obligations.DigitCommandsHaveNoHiddenState : Prop :=
  ∀ (i : Instr) (s s' t t' : State), isControl i = false →
    s.cfg = s'.cfg → s.answers = s'.answers → s.resets = s'.resets →
    exec i s = .next t → exec i s' = .next t' →
    ∃ new, t.log = s.log ++ new ∧ t'.log = s'.log ++ new

/-- 70_reset_and_hazards.md R234: after one control command and one four-slot command with every transaction ok, all
five bus registers hold known bytes, whatever was known before. -/
def Obligations.BootMakesDisplayKnown : Prop :=
  ∀ (c i : Instr) (s : State) (m : Masks) (rest : List BusResult), isControl c = true → fourSlotMasks s.cfg i = some m →
    s.answers = BusResult.ok :: .ok :: .ok :: .ok :: .ok :: rest → noResetWithin 5 s.resets = true →
    ∃ t u, exec c s = .next t ∧ exec i t = .next u ∧
      u.imageAt s.cfg.ctrlAddr = some (ctrlByte u.pwr u.bri) ∧
      ∀ k, k ≤ 3 → u.imageAt (digitAddr s.cfg k) = some (m.get k)

/-! ### Frames -/

/-- The frame of the commands that issue no transaction, and of every command on an operand out of range
(40_segment_codec.md R102, 42_scale_renderer.md R164, R174; 60_exceptions.md R212): nothing but the log and the phase
changes, every byte of the image reads as before. -/
def Obligations.FrameOfCommandsWithoutTransaction : Prop :=
  ∀ (i : Instr) (s t : State), exec i s = .next t → isControl i = false → fourSlotMasks s.cfg i = none →
    (∀ slot mask, i = .writeDigit slot mask → slot < 0 ∨ 3 < slot) →
    t.pwr = s.pwr ∧ t.bri = s.bri ∧ t.cfg = s.cfg ∧ t.commands = s.commands ∧ t.answers = s.answers ∧
    t.resets = s.resets ∧ t.trace = s.trace ∧ ∀ a, t.imageAt a = s.imageAt a

/-- The frame of the control commands (41_display_controller.md R122–R124): every byte of the image but the one at
CTRL_ADDR reads as before, for every draw and every reset; without a reset only the command's own register changes. -/
def Obligations.FrameOfControlCommands : Prop :=
  ∀ (i : Instr) (s t : State), exec i s = .next t → isControl i = true →
    t.cfg = s.cfg ∧ t.commands = s.commands ∧ (∀ a, a ≠ s.cfg.ctrlAddr → t.imageAt a = s.imageAt a) ∧
    (noResetWithin 1 s.resets = true →
      ((∀ val, i ≠ .setBrightness val) → t.bri = s.bri) ∧ ((∃ val, i = .setBrightness val) → t.pwr = s.pwr))

/-- The frame of WRITE_DIGIT (41_display_controller.md R126, 70_reset_and_hazards.md R236): every byte of the image but
the one at its slot's address reads as before; without a reset no register changes. -/
def Obligations.FrameOfWriteDigit : Prop :=
  ∀ (slot : Int) (mask : Word32) (s t : State), exec (.writeDigit slot mask) s = .next t →
    t.cfg = s.cfg ∧ t.commands = s.commands ∧
    (∀ a, a ≠ digitAddr s.cfg slot.toNat → t.imageAt a = s.imageAt a) ∧
    (noResetWithin 1 s.resets = true → t.pwr = s.pwr ∧ t.bri = s.bri)

/-- The frame of the four-slot commands (41_display_controller.md R125, R127, R128; 42_scale_renderer.md R165, R175):
every byte of the image but those at the four digit addresses reads as before; without a reset no register changes. -/
def Obligations.FrameOfFourSlotCommands : Prop :=
  ∀ (i : Instr) (s t : State) (m : Masks), exec i s = .next t → fourSlotMasks s.cfg i = some m →
    t.cfg = s.cfg ∧ t.commands = s.commands ∧
    (∀ a, (∀ k, k ≤ 3 → a ≠ digitAddr s.cfg k) → t.imageAt a = s.imageAt a) ∧
    (noResetWithin 4 s.resets = true → t.pwr = s.pwr ∧ t.bri = s.bri)

/-! ### The command port, reset and the step -/

/-- 60_exceptions.md R205 with R201 (the info): an illegal word held on the port of the Idle block gets IllegalCommand with
its opcode byte, and nothing else happens. That its acceptance passes two boundaries, at which no reset is due here, is
the model's choice (log 5, log 6). -/
def Obligations.IllegalWordIsAnswered : Prop :=
  ∀ (s : State) (w : CmdWord) (rest : List CmdWord), illegalWord w → s.phase = .idle → s.commands = w :: rest →
    noResetWithin 2 s.resets = true →
    step s =
      .next { s with
        commands := rest
        log := s.log ++ [.response (responseWord .illegalCommand ((field w 0 8).setWidth 32))]
        resets := resetsAfter 2 s.resets }

/-- A step of the Idle block runs the command its held word decodes to (70_reset_and_hazards.md R234, 10_state.md
R29): the word leaves the port, two boundaries pass without a reset, and the phase is Executing that command. -/
def Obligations.StepRunsDecodedCommand : Prop :=
  ∀ (s : State) (w : CmdWord) (rest : List CmdWord) (i : Instr), s.phase = .idle → s.commands = w :: rest →
    decode w = .ok i → noResetWithin 2 s.resets = true →
    step s = exec i { s with commands := rest, resets := resetsAfter 2 s.resets, phase := .executing i 0 }

/-- 70_reset_and_hazards.md R233: the Idle block without a word waits for the first command. -/
def Obligations.IdleBlockWaits : Prop :=
  ∀ s : State, s.phase = .idle → s.commands = [] → noResetWithin 1 s.resets = true → step s = .next s

/-- 70_reset_and_hazards.md R230: reset, in whatever phase, sets PWR and BRI to the open parameters and the phase to
Idle, issues no transaction, answers nothing and touches no parameter; the Idle block takes a reset that is due. -/
def Obligations.ResetSetsInitialRegisters : Prop :=
  (∀ s : State, s.takeReset.pwr = s.cfg.initPower ∧ s.takeReset.bri = s.cfg.initBrightness ∧
    s.takeReset.phase = .idle ∧ s.takeReset.trace = s.trace ∧ s.takeReset.responses = s.responses ∧
    s.takeReset.cfg = s.cfg ∧ s.takeReset.image = s.image) ∧
  ∀ (s : State) (resets : List Nat), s.phase = .idle → s.resets = 0 :: resets → step s = .next s.takeReset

/-- 10_state.md R31 and 70_reset_and_hazards.md R230, R232 at power-up. That no word is presented and the log is empty
there is the model's choice (logs 9, 13). -/
def Obligations.PowerUpState : Prop :=
  State.reset.pwr = State.reset.cfg.initPower ∧ State.reset.bri = State.reset.cfg.initBrightness ∧
  State.reset.phase = .idle ∧ (∀ a, State.reset.imageAt a = none) ∧ State.reset.trace = [] ∧
  State.reset.responses = [] ∧ State.reset.commands = []

/-- 70_reset_and_hazards.md R234: a word presented while the block is Executing is held, and an Idle block takes at
most the first. -/
def Obligations.WordsAreHeldInOrder : Prop :=
  (∀ (s t : State) (cmd : Instr) (k : Nat), s.phase = .executing cmd k → step s = .next t → t.commands = s.commands) ∧
  ∀ s t : State, step s = .next t → t.commands = s.commands ∨ t.commands = s.commands.tail

/-- 10_state.md R21, R22 and R100: in one step only a reset or the command's own register write changes PWR or BRI, and
nothing changes the parameters. -/
def Obligations.OnlyControlCommandsWriteRegisters : Prop :=
  ∀ s t : State, step s = .next t →
    t.cfg = s.cfg ∧
    (t.pwr ≠ s.pwr → (∃ new, t.log = s.log ++ new ∧ Event.reset ∈ new) ∨
      (s.phase = .idle ∧ ∃ w rest, s.commands = w :: rest ∧
        ((decode w = .ok .powerOn ∧ t.pwr = 1) ∨ (decode w = .ok .powerOff ∧ t.pwr = 0)))) ∧
    (t.bri ≠ s.bri → (∃ new, t.log = s.log ++ new ∧ Event.reset ∈ new) ∨
      (s.phase = .idle ∧ ∃ w rest val, s.commands = w :: rest ∧ decode w = .ok (.setBrightness val)))

/-- 10_state.md R28, 60_exceptions.md R214 and 70_reset_and_hazards.md R232: no step takes anything off the trace or the
responses, not even a reset. -/
def Obligations.LogOnlyGrows : Prop :=
  ∀ s t : State, step s = .next t →
    (∃ new, t.log = s.log ++ new) ∧ s.trace <+: t.trace ∧ s.responses <+: t.responses

/-- 60_exceptions.md R200 and R210: no exception stops the block; every step, in every state, answers a next state. -/
def Obligations.StepNeverStops : Prop :=
  ∀ s : State, ∃ t, step s = .next t

/-- 70_reset_and_hazards.md R240: while the transport does not answer, the block stays Executing, and each step leaves
it as it is. Reachable phases are legal (InvariantKeptByStep). -/
def Obligations.SilentTransportHangs : Prop :=
  ∀ (s : State) (cmd : Instr) (k : Nat), s.Inv → s.phase = .executing cmd k → s.answers = [] → step s = .next s

/-- 70_reset_and_hazards.md R240: the block is untimed. A command that waits for the transport and goes on when the
answers come ends exactly as one whose answers were there at once, for every draw and every reset: the model's choice of
a step (log 8) shows in no event. -/
def Obligations.TransportDelayIsInvisible : Prop :=
  ∀ (i cmd : Instr) (s t : State) (k : Nat) (now later : List BusResult),
    exec i { s with answers := now } = .next t → t.phase = .executing cmd k →
    step { t with answers := later } = exec i { s with answers := now ++ later }

/-- THE INVARIANT IS KEPT BY EVERY STEP: the display image is the one the trace implies (10_state.md R27, 20_memory.md
R48) in canonical form, every transaction goes to one of the five addresses and every control byte is legal (R41,
41_display_controller.md R132), the phase is legal (10_state.md R29), and no response has a status above 4
(60_exceptions.md R201). -/
def Obligations.InvariantKeptByStep : Prop :=
  ∀ s t : State, s.Inv → step s = .next t → t.Inv

/-- The invariant holds at reset, whatever the open parameters and the draws are. -/
def Obligations.InvariantHoldsAtReset : Prop :=
  State.reset.Inv
end

