-- ==== Sys2Proof/Laws/Assembler.lean ====
section
/-! SUPPORT. What each part of the assembler answers, said once (30_encoding.md R73, R74). -/

namespace Sys2Proof.Machine

/-! ### Mnemonics -/

/-- An opcode of the map belongs to one mnemonic only. -/
theorem mnemonic_of_opcode {m : List Char} {n : Nat} (h : mnemonicOpcode m = n + 1) (hn : n < mnemonics.length) :
    m = mnemonics[n] := by
  have hi : mnemonics.idxOf m = n := Nat.succ.inj h
  subst hi
  exact (List.getElem_idxOf hn).symm

/-- A listed mnemonic has the opcode of its place. -/
theorem opcode_of_mnemonic {n : Nat} (hn : n < mnemonics.length) : mnemonicOpcode mnemonics[n] = n + 1 := by
  have nodup : mnemonics.Nodup := by decide
  rw [mnemonicOpcode, List.Nodup.idxOf_getElem nodup]

/-! ### Lists -/

/-- A list in brackets is read as its items. -/
theorem listOperand_listTokens (items : List Int) : listOperand (listTokens items) = some items := by
  have read : ∀ v vs, listItems (itemTokens (v :: vs) ++ [.listClose]) = some (v :: vs) := by
    intro v vs
    induction vs generalizing v with
    | nil => rfl
    | cons u vs ih =>
      show (listItems (itemTokens (u :: vs) ++ [.listClose])).map _ = _
      rw [ih]
      rfl
  cases items with
  | nil => rfl
  | cons v vs =>
    have open_ : listOperand (.listOpen :: (itemTokens (v :: vs) ++ [.listClose])) =
        listItems (itemTokens (v :: vs) ++ [.listClose]) := by
      cases vs <;> rfl
    exact open_.trans (read v vs)

/-- Items are bytes exactly when each is in 0..255. -/
theorem byteOperands_eq (items : List Int) :
    byteOperands items =
      if ∀ v ∈ items, 0 ≤ v ∧ v ≤ 255 then some (items.map (BitVec.ofInt 8)) else none := by
  induction items with
  | nil => rfl
  | cons v vs ih =>
    simp only [byteOperands, ih, byteOperand, List.forall_mem_cons]
    by_cases hv : 0 ≤ v ∧ v ≤ 255
    · by_cases hvs : ∀ u ∈ vs, 0 ≤ u ∧ u ≤ 255
      · rw [if_pos hv, if_pos hvs, if_pos ⟨hv, hvs⟩]
        rfl
      · rw [if_pos hv, if_neg hvs, if_neg fun h => hvs h.2]
    · rw [if_neg hv, if_neg (c := _ ∧ _) fun h => hv h.1]

/-- A list fits the element fields exactly when it has at most 255 items, each a byte. -/
theorem elementsOperand_eq (items : List Int) :
    elementsOperand items =
      if (∀ v ∈ items, 0 ≤ v ∧ v ≤ 255) ∧ items.length ≤ 255 then
        some
          { len := BitVec.ofNat 8 items.length
            e0 := BitVec.ofInt 8 (items.getD 0 0), e1 := BitVec.ofInt 8 (items.getD 1 0)
            e2 := BitVec.ofInt 8 (items.getD 2 0), e3 := BitVec.ofInt 8 (items.getD 3 0) }
      else none := by
  have item : ∀ k, (items.map (BitVec.ofInt 8)).getD k 0 = BitVec.ofInt 8 (items.getD k 0) := by
    intro k
    rw [show (0 : Byte) = BitVec.ofInt 8 0 from rfl, List.getD_map]
  rw [elementsOperand, byteOperands_eq]
  by_cases hl : items.length ≤ 255
  · by_cases hv : ∀ v ∈ items, 0 ≤ v ∧ v ≤ 255
    · rw [if_pos hl, if_pos hv, if_pos ⟨hv, hl⟩]
      simp only [Option.map_some, item]
    · rw [if_pos hl, if_neg hv, if_neg fun h => hv h.1]
      rfl
  · rw [if_neg hl, if_neg fun h => hl h.2]

end Sys2Proof.Machine
end

