-- ==== Sys2Proof/Laws/Encoding.lean ====
section
/-! SUPPORT. The fields of an encoded word, the reserved bits as fields, and the 32-bit signed operands. -/

namespace Sys2Proof

/-! ### The fields of a word made of its three common fields (30_encoding.md R62) -/

section fields
variable (opc : Byte) (a bf : Word32)

@[simp] theorem field_opc : field (wordOfFields opc a bf) 0 8 = opc := by
  ext i hi
  simp only [field, wordOfFields, BitVec.getElem_extractLsb', BitVec.getLsbD_append]
  simp [hi]

/-- A field inside A. -/
theorem field_in_A {lo len : Nat} (h₁ : 8 ≤ lo) (h₂ : lo + len ≤ 40) :
    field (wordOfFields opc a bf) lo len = a.extractLsb' (lo - 8) len := by
  ext i hi
  simp only [field, wordOfFields, BitVec.getElem_extractLsb', BitVec.getLsbD_append]
  have e : lo + i - 8 = lo - 8 + i := by omega
  have h₃ : lo + i < 8 + 32 := by omega
  have h₄ : ¬ lo + i < 8 := by omega
  have h₅ : lo - 8 + i < 32 := by omega
  simp [e, h₄, h₅]

/-- A field inside Bf. -/
theorem field_in_Bf {lo len : Nat} (h₁ : 40 ≤ lo) (h₂ : lo + len ≤ 72) :
    field (wordOfFields opc a bf) lo len = bf.extractLsb' (lo - 40) len := by
  ext i hi
  simp only [field, wordOfFields, BitVec.getElem_extractLsb', BitVec.getLsbD_append]
  have e : lo + i - 8 - 32 = lo - 40 + i := by omega
  have h₄ : ¬ lo + i < 8 := by omega
  have h₅ : ¬ lo + i - 8 < 32 := by omega
  simp [e, h₄, h₅]

@[simp] theorem field_A : field (wordOfFields opc a bf) 8 32 = a := by
  rw [field_in_A _ _ _ (by decide) (by decide)]
  simp

@[simp] theorem field_Bf : field (wordOfFields opc a bf) 40 32 = bf := by
  rw [field_in_Bf _ _ _ (by decide) (by decide)]
  simp

end fields

/-- A word is its three common fields (30_encoding.md R62). -/
theorem word_eq_fields (w : CmdWord) : wordOfFields (field w 0 8) (field w 8 32) (field w 40 32) = w := by
  apply BitVec.eq_of_getLsbD_eq
  intro i hi
  simp only [field, wordOfFields, BitVec.getLsbD_append, BitVec.getLsbD_extractLsb']
  by_cases h₁ : i < 8
  · simp [h₁]
  · by_cases h₂ : i - 8 < 32
    · have e : 8 + (i - 8) = i := by omega
      simp [h₁, h₂, e]
    · have e : 40 + (i - 8 - 32) = i := by omega
      have h₃ : i - 8 - 32 < 32 := by omega
      simp [h₁, h₂, e, h₃]

/-! ### The fields of the formats T and P (30_encoding.md R63) -/

/-- The elements of a word of format T. -/
theorem elementsOf_word (opc : Byte) (t : Elements) :
    elementsOf (wordOfFields opc t.fieldA (t.len.setWidth 32)) = t := by
  have h : field (wordOfFields opc t.fieldA (t.len.setWidth 32)) 40 8 = t.len := by
    rw [field_in_Bf _ _ _ (by decide) (by decide)]
    ext i hi
    simp [hi]
    omega
  have h₀ : field (wordOfFields opc t.fieldA (t.len.setWidth 32)) 8 8 = t.e0 := by
    rw [field_in_A _ _ _ (by decide) (by decide)]
    ext i hi
    simp only [Elements.fieldA, BitVec.getElem_extractLsb', BitVec.getLsbD_append]
    simp [hi]
  have h₁ : field (wordOfFields opc t.fieldA (t.len.setWidth 32)) 16 8 = t.e1 := by
    rw [field_in_A _ _ _ (by decide) (by decide)]
    ext i hi
    simp only [Elements.fieldA, BitVec.getElem_extractLsb', BitVec.getLsbD_append]
    simp [hi]
  have h₂ : field (wordOfFields opc t.fieldA (t.len.setWidth 32)) 24 8 = t.e2 := by
    rw [field_in_A _ _ _ (by decide) (by decide)]
    ext i hi
    simp only [Elements.fieldA, BitVec.getElem_extractLsb', BitVec.getLsbD_append]
    simp [hi, show ¬ 16 + i < 8 by omega, show ¬ 16 + i - 8 < 8 by omega, show 16 + i - 8 - 8 = i by omega]
  have h₃ : field (wordOfFields opc t.fieldA (t.len.setWidth 32)) 32 8 = t.e3 := by
    rw [field_in_A _ _ _ (by decide) (by decide)]
    ext i hi
    simp only [Elements.fieldA, BitVec.getElem_extractLsb', BitVec.getLsbD_append]
    simp [hi, show ¬ 24 + i < 8 by omega, show ¬ 24 + i - 8 < 8 by omega, show ¬ 24 + i - 8 - 8 < 8 by omega,
      show 24 + i - 8 - 8 - 8 = i by omega]
  simp [elementsOf, h, h₀, h₁, h₂, h₃]

/-- The elements of a word make up its A. -/
theorem fieldA_elementsOf (w : CmdWord) : (elementsOf w).fieldA = field w 8 32 := by
  apply BitVec.eq_of_getLsbD_eq
  intro i hi
  simp only [Elements.fieldA, elementsOf, field, BitVec.getLsbD_append, BitVec.getLsbD_extractLsb']
  by_cases h₀ : i < 8
  · simp [h₀, hi]
  · by_cases h₁ : i - 8 < 8
    · simp [h₀, h₁, hi, show 16 + (i - 8) = 8 + i by omega]
    · by_cases h₂ : i - 8 - 8 < 8
      · simp [h₀, h₁, h₂, hi, show 24 + (i - 8 - 8) = 8 + i by omega]
      · simp [h₀, h₁, h₂, hi, show i - 8 - 8 - 8 < 8 by omega, show 32 + (i - 8 - 8 - 8) = 8 + i by omega]

/-- MODE of a word of format P. -/
@[simp] theorem modeOf_word (opc : Byte) (a : Word32) (mode : Mode) (cap : Byte) :
    modeOf (wordOfFields opc a (fieldModeCap mode cap)) = some mode := by
  have h : field (wordOfFields opc a (fieldModeCap mode cap)) 40 8 = mode.code := by
    rw [field_in_Bf _ _ _ (by decide) (by decide)]
    ext i hi
    simp only [fieldModeCap, BitVec.getElem_extractLsb', BitVec.getLsbD_append]
    simp [hi]
  rw [modeOf, h]
  cases mode <;> rfl

/-- CAP of a word of format P. -/
@[simp] theorem capOf_word (opc : Byte) (a : Word32) (mode : Mode) (cap : Byte) :
    capOf (wordOfFields opc a (fieldModeCap mode cap)) = cap := by
  rw [capOf, field_in_Bf _ _ _ (by decide) (by decide)]
  ext i hi
  simp only [fieldModeCap, BitVec.getElem_extractLsb', BitVec.getLsbD_append]
  simp [hi]

/-- MODE is legal exactly when it is 0 or 1, and its code is its byte. -/
theorem modeOf_code {w : CmdWord} {mode : Mode} (h : modeOf w = some mode) : mode.code = field w 40 8 := by
  apply BitVec.eq_of_toNat_eq
  unfold modeOf at h
  split at h
  · rename_i e
    obtain rfl := Option.some.inj h
    exact e.symm
  · rename_i e
    obtain rfl := Option.some.inj h
    exact e.symm
  · exact absurd h (by simp)

theorem modeOf_none_iff {w : CmdWord} : modeOf w = none ↔ 2 ≤ (field w 40 8).toNat := by
  unfold modeOf
  generalize (field w 40 8).toNat = n
  match n with
  | 0 => simp
  | 1 => simp
  | n + 2 => simp

/-! ### Reserved bits (30_encoding.md R66) -/

/-- The bits of a mask of ones from `lo` up are zero in `w` exactly when the field above `lo` is zero. -/
theorem and_mask_eq_zero (w m : CmdWord) (lo : Nat) (hlo : lo ≤ 72)
    (hm : ∀ i, i < 72 → m.getLsbD i = decide (lo ≤ i)) : w &&& m = 0#72 ↔ field w lo (72 - lo) = 0 := by
  constructor
  · intro h
    ext i hi
    have := congrArg (BitVec.getLsbD · (lo + i)) h
    simp only [BitVec.getLsbD_and, hm (lo + i) (by omega), BitVec.getLsbD_zero] at this
    simpa [field] using this
  · intro h
    apply BitVec.eq_of_getLsbD_eq
    intro i hi
    rw [BitVec.getLsbD_and, hm i hi]
    by_cases hl : lo ≤ i
    · have := congrArg (BitVec.getLsbD · (i - lo)) h
      have e : lo + (i - lo) = i := by omega
      have h₂ : i - lo < 72 - lo := by omega
      simp only [field, BitVec.getLsbD_extractLsb', e, h₂] at this
      simp_all
    · simp [hl]

theorem reserved_N (w : CmdWord) : w &&& Format.N.reservedMask = 0#72 ↔ field w 8 64 = 0 :=
  and_mask_eq_zero w _ 8 (by decide) (by decide)

theorem reserved_L (w : CmdWord) : w &&& Format.L.reservedMask = 0#72 ↔ field w 16 56 = 0 :=
  and_mask_eq_zero w _ 16 (by decide) (by decide)

theorem reserved_V (w : CmdWord) : w &&& Format.V.reservedMask = 0#72 ↔ field w 40 32 = 0 :=
  and_mask_eq_zero w _ 40 (by decide) (by decide)

theorem reserved_D (w : CmdWord) : w &&& Format.D.reservedMask = 0#72 := by simp [Format.reservedMask]

theorem reserved_T (w : CmdWord) : w &&& Format.T.reservedMask = 0#72 ↔ field w 48 24 = 0 :=
  and_mask_eq_zero w _ 48 (by decide) (by decide)

theorem reserved_P (w : CmdWord) : w &&& Format.P.reservedMask = 0#72 ↔ field w 56 16 = 0 :=
  and_mask_eq_zero w _ 56 (by decide) (by decide)

/-! ### Signed operands (30_encoding.md R64) -/

/-- A 32-bit field read as a signed integer and written again. -/
@[simp] theorem a32_toInt (a : Word32) : a32 a.toInt = a := BitVec.ofInt_toInt

/-- A signed integer in range survives its field. -/
theorem toInt_a32 {v : Int} (h : inS32 v = true) : (a32 v).toInt = v := by
  simp only [inS32, Bool.and_eq_true, decide_eq_true_eq] at h
  rw [a32, BitVec.toInt_ofInt]
  exact Int.bmod_eq_of_le (by omega) (by omega)

/-- Every 32-bit field is in range. -/
@[simp] theorem inS32_toInt (a : Word32) : inS32 a.toInt = true := by
  have h₁ := BitVec.le_toInt a
  have h₂ := BitVec.toInt_lt (x := a)
  simp only [inS32, Bool.and_eq_true, decide_eq_true_eq]
  omega

end Sys2Proof
end

