-- ==== Sys2Proof/Laws/Memory.lean ====
section
/-! SUPPORT. The display image: reads after writes, and the canonical form that every operation keeps. -/

namespace Sys2Proof.Machine

/-- Reading what was just written. -/
@[simp] theorem Memory.read_write_same (m : Memory) (a : Nat) (b : Byte) : (Memory.write m a b).read a = some b := by
  induction m with
  | nil => simp [Memory.write, Memory.read]
  | cons c m ih =>
    obtain ⟨a', b'⟩ := c
    unfold Memory.write
    split
    · simp [Memory.read]
    · split
      · simp [Memory.read]
      · rename_i h
        simp [Memory.read, ih, Ne.symm h]

/-- A write leaves every other address. -/
theorem Memory.read_write_other {m : Memory} {a a' : Nat} {b : Byte} (h : a' ≠ a) :
    (Memory.write m a b).read a' = Memory.read m a' := by
  induction m with
  | nil => simp [Memory.write, Memory.read, h.symm]
  | cons c m ih =>
    obtain ⟨x, y⟩ := c
    unfold Memory.write
    split
    · simp [Memory.read, h.symm]
    · split
      · rename_i h'
        simp [Memory.read, h.symm, h' ▸ h.symm]
      · simp [Memory.read, ih]

/-- Forgetting leaves every other address. -/
theorem Memory.read_forget_other {m : Memory} {a a' : Nat} (h : a' ≠ a) :
    (Memory.forget m a).read a' = Memory.read m a' := by
  induction m with
  | nil => rfl
  | cons c m ih =>
    obtain ⟨x, y⟩ := c
    unfold Memory.forget
    split
    · rename_i h'
      simp [Memory.read, h' ▸ h.symm]
    · simp [Memory.read, ih]

/-- An address no cell lists has no known value. -/
theorem Memory.read_none {m : Memory} {a : Nat} (h : ∀ c ∈ m, c.1 ≠ a) : Memory.read m a = none := by
  induction m with
  | nil => rfl
  | cons c m ih =>
    simp only [List.mem_cons, forall_eq_or_imp] at h
    simp [Memory.read, h.1, ih h.2]

theorem Memory.read_forget_same {m : Memory} {a : Nat} (h : m.Pairwise (fun c d => c.1 < d.1)) :
    (Memory.forget m a).read a = none := by
  induction m with
  | nil => rfl
  | cons c m ih =>
    obtain ⟨x, y⟩ := c
    rw [List.pairwise_cons] at h
    unfold Memory.forget
    split
    · rename_i h'
      exact Memory.read_none fun d hd => by have := h.1 d hd; simp at this; omega
    · rename_i h'
      simp [Memory.read, h', ih h.2]

/-- The cells of a written image. -/
theorem Memory.mem_write {m : Memory} {a : Nat} {b : Byte} {c : Host.Cell} (h : c ∈ Memory.write m a b) :
    c = (a, b) ∨ c ∈ m := by
  induction m with
  | nil => exact .inl (List.mem_singleton.1 h)
  | cons d m ih =>
    obtain ⟨x, y⟩ := d
    unfold Memory.write at h
    split at h
    · simpa using h
    · split at h
      · rcases List.mem_cons.1 h with h | h
        · exact .inl h
        · exact .inr (List.mem_cons_of_mem _ h)
      · rcases List.mem_cons.1 h with rfl | h
        · exact .inr (List.mem_cons_self ..)
        · exact (ih h).imp_right (List.mem_cons_of_mem _)

/-- The cells of an image after a failed write. -/
theorem Memory.mem_forget {m : Memory} {a : Nat} {c : Host.Cell} (h : c ∈ Memory.forget m a) : c ∈ m := by
  induction m with
  | nil => exact h
  | cons d m ih =>
    obtain ⟨x, y⟩ := d
    unfold Memory.forget at h
    split at h
    · exact List.mem_cons_of_mem _ h
    · rcases List.mem_cons.1 h with rfl | h
      · exact List.mem_cons_self ..
      · exact List.mem_cons_of_mem _ (ih h)

/-- A successful write keeps the canonical form. -/
theorem Memory.write_wf {m : Memory} {a : Nat} (b : Byte) (h : Memory.wf m) (ha : a < 256) :
    Memory.wf (Memory.write m a b) := by
  refine ⟨?_, fun c hc => (Memory.mem_write hc).elim (fun e => e ▸ ha) (h.2 c)⟩
  obtain ⟨h, -⟩ := h
  induction m with
  | nil => simp [Memory.write]
  | cons d m ih =>
    obtain ⟨x, y⟩ := d
    rw [List.pairwise_cons] at h
    unfold Memory.write
    split
    · rename_i hax
      refine List.pairwise_cons.2 ⟨fun c hc => ?_, List.pairwise_cons.2 h⟩
      rcases List.mem_cons.1 hc with rfl | hc
      · exact hax
      · exact lt_trans hax (h.1 c hc)
    · split
      · rename_i e
        exact List.pairwise_cons.2 ⟨fun c hc => e ▸ h.1 c hc, h.2⟩
      · refine List.pairwise_cons.2 ⟨fun c hc => ?_, ih h.2⟩
        rcases Memory.mem_write hc with rfl | hc
        · show x < a
          omega
        · exact h.1 c hc

/-- A failed write keeps the canonical form. -/
theorem Memory.forget_wf {m : Memory} (a : Nat) (h : Memory.wf m) : Memory.wf (Memory.forget m a) := by
  refine ⟨?_, fun c hc => h.2 c (Memory.mem_forget hc)⟩
  obtain ⟨h, -⟩ := h
  induction m with
  | nil => simp [Memory.forget]
  | cons d m ih =>
    obtain ⟨x, y⟩ := d
    rw [List.pairwise_cons] at h
    unfold Memory.forget
    split
    · exact h.2
    · exact List.pairwise_cons.2 ⟨fun c hc => h.1 c (Memory.mem_forget hc), ih h.2⟩

/-- The image at reset is in canonical form. -/
theorem reset_image_wf : State.reset.image.wf := by decide

/-- Every bus transaction keeps the canonical form of the image. -/
theorem busWrite_image_wf {s : State} (w : Write) (r : BusResult) (h : s.image.wf) : (s.busWrite w r).image.wf := by
  cases r with
  | ok => exact Memory.write_wf _ h w.addr.isLt
  | fail => exact Memory.forget_wf _ h

end Sys2Proof.Machine
end

