-- ==== Sys2Proof/Laws/State.lean ====
section
/-! SUPPORT. One lemma for each field and each shared update of the state. -/

namespace Sys2Proof.Machine

section respond
variable (s : State) (st : Status) (v : Word32) (e : Exn)

@[simp] theorem respond_cfg : (s.respond st v).cfg = s.cfg := rfl
@[simp] theorem respond_pwr : (s.respond st v).pwr = s.pwr := rfl
@[simp] theorem respond_bri : (s.respond st v).bri = s.bri := rfl
@[simp] theorem respond_phase : (s.respond st v).phase = .idle := rfl
@[simp] theorem respond_image : (s.respond st v).image = s.image := rfl
@[simp] theorem respond_log : (s.respond st v).log = s.log ++ [.response (responseWord st v)] := rfl
@[simp] theorem respond_commands : (s.respond st v).commands = s.commands := rfl
@[simp] theorem respond_answers : (s.respond st v).answers = s.answers := rfl
@[simp] theorem respond_resets : (s.respond st v).resets = s.resets := rfl
theorem raise_eq_respond : s.raise e = s.respond e.status e.info := rfl

end respond

section takeReset
variable (s : State)

@[simp] theorem takeReset_cfg : s.takeReset.cfg = s.cfg := rfl
@[simp] theorem takeReset_pwr : s.takeReset.pwr = s.cfg.initPower := rfl
@[simp] theorem takeReset_bri : s.takeReset.bri = s.cfg.initBrightness := rfl
@[simp] theorem takeReset_phase : s.takeReset.phase = .idle := rfl
@[simp] theorem takeReset_image : s.takeReset.image = s.image := rfl
@[simp] theorem takeReset_log : s.takeReset.log = s.log ++ [.reset] := rfl
@[simp] theorem takeReset_commands : s.takeReset.commands = s.commands := rfl
@[simp] theorem takeReset_answers : s.takeReset.answers = s.answers := rfl
@[simp] theorem takeReset_resets : s.takeReset.resets = s.resets.tail := rfl

end takeReset

section busWrite
variable (s : State) (w : Write) (r : BusResult)

@[simp] theorem busWrite_cfg : (s.busWrite w r).cfg = s.cfg := rfl
@[simp] theorem busWrite_pwr : (s.busWrite w r).pwr = s.pwr := rfl
@[simp] theorem busWrite_bri : (s.busWrite w r).bri = s.bri := rfl
@[simp] theorem busWrite_phase : (s.busWrite w r).phase = s.phase := rfl
@[simp] theorem busWrite_log : (s.busWrite w r).log = s.log ++ [w.event r] := rfl
@[simp] theorem busWrite_image_ok : (s.busWrite w .ok).image = s.image.write w.addr.toNat w.data := rfl
@[simp] theorem busWrite_image_fail : (s.busWrite w .fail).image = s.image.forget w.addr.toNat := rfl
@[simp] theorem busWrite_commands : (s.busWrite w r).commands = s.commands := rfl
@[simp] theorem busWrite_answers : (s.busWrite w r).answers = s.answers.tail := rfl
@[simp] theorem busWrite_resets : (s.busWrite w r).resets = s.resets := rfl

end busWrite

section views
variable (l : List Event)

/-- The trace grows with the transactions of the log only. -/
@[simp] theorem trace_append (s : State) (l₂ : List Event) :
    ({ s with log := l ++ l₂ } : State).trace =
      ({ s with log := l } : State).trace ++ l₂.filterMap Event.transaction? := by
  simp [State.trace]

@[simp] theorem transaction?_transaction (t : Transaction) : (Event.transaction t).transaction? = some t := rfl
@[simp] theorem transaction?_response (r : Response) : (Event.response r).transaction? = none := rfl
@[simp] theorem transaction?_reset : Event.reset.transaction? = none := rfl
@[simp] theorem response?_transaction (t : Transaction) : (Event.transaction t).response? = none := rfl
@[simp] theorem response?_response (r : Response) : (Event.response r).response? = some r := rfl
@[simp] theorem response?_reset : Event.reset.response? = none := rfl

/-- Listed transactions stand in the trace as they are. -/
theorem transactions_of_events (ws : List Write) (r : BusResult) :
    (ws.map (·.event r)).filterMap Event.transaction? = ws.map fun w => ⟨w.addr, w.data, r⟩ := by
  rw [List.filterMap_map]
  exact congrFun (List.filterMap_eq_map (f := fun w : Write => (⟨w.addr, w.data, r⟩ : Transaction))) ws

/-- A transaction is no response. -/
theorem responses_of_events (ws : List Write) (r : BusResult) :
    (ws.map (·.event r)).filterMap Event.response? = [] :=
  List.filterMap_eq_nil_iff.2 fun e he => by
    obtain ⟨w, -, rfl⟩ := List.mem_map.1 he
    rfl

/-- The trace after the log has grown. -/
theorem trace_of_log {s t : State} {new : List Event} (h : t.log = s.log ++ new) :
    t.trace = s.trace ++ new.filterMap Event.transaction? := by
  simp [State.trace, h]

/-- The responses after the log has grown. -/
theorem responses_of_log {s t : State} {new : List Event} (h : t.log = s.log ++ new) :
    t.responses = s.responses ++ new.filterMap Event.response? := by
  simp [State.responses, h]

end views

/-! ### The response word -/

@[simp] theorem responseStatus_responseWord (st : Status) (v : Word32) : responseStatus (responseWord st v) = st.code :=
  BitVec.extractLsb'_append_eq_right

@[simp] theorem responseValue_responseWord (st : Status) (v : Word32) : responseValue (responseWord st v) = v :=
  BitVec.extractLsb'_append_eq_left

/-! ### Boundaries -/

section passBoundary
variable (s : State)

@[simp] theorem passBoundary_cfg : s.passBoundary.cfg = s.cfg := rfl
@[simp] theorem passBoundary_pwr : s.passBoundary.pwr = s.pwr := rfl
@[simp] theorem passBoundary_bri : s.passBoundary.bri = s.bri := rfl
@[simp] theorem passBoundary_phase : s.passBoundary.phase = s.phase := rfl
@[simp] theorem passBoundary_image : s.passBoundary.image = s.image := rfl
@[simp] theorem passBoundary_log : s.passBoundary.log = s.log := rfl
@[simp] theorem passBoundary_commands : s.passBoundary.commands = s.commands := rfl
@[simp] theorem passBoundary_answers : s.passBoundary.answers = s.answers := rfl
@[simp] theorem passBoundary_resets : s.passBoundary.resets = resetsAfter 1 s.resets := rfl

end passBoundary

/-- A reset is due exactly where the next one is no boundary away. -/
theorem resetDue_iff {s : State} : s.resetDue = true ↔ ∃ rest, s.resets = 0 :: rest := by
  unfold State.resetDue
  split
  · simp_all
  · rename_i h
    simp only [Bool.false_eq_true, false_iff, not_exists]
    exact fun rest e => h rest e

theorem resetDue_false_iff {s : State} : s.resetDue = false ↔ noResetWithin 1 s.resets = true := by
  unfold State.resetDue
  split
  · simp_all [noResetWithin]
  · rename_i h
    cases hs : s.resets with
    | nil => simp [noResetWithin]
    | cons m l =>
      have : m ≠ 0 := fun e => h l (by rw [hs, e])
      simp only [noResetWithin, decide_eq_true_eq, true_iff]
      omega

@[simp] theorem noResetWithin_zero (l : List Nat) : noResetWithin 0 l = true := by
  cases l <;> simp [noResetWithin]

theorem noResetWithin_of_le {n m : Nat} {l : List Nat} (hnm : n ≤ m) (h : noResetWithin m l = true) :
    noResetWithin n l = true := by
  cases l <;> simp_all [noResetWithin]
  omega

theorem noResetWithin_resetsAfter {n m : Nat} {l : List Nat} (h : noResetWithin (n + m) l = true) :
    noResetWithin m (resetsAfter n l) = true := by
  cases l <;> simp_all [noResetWithin, resetsAfter]
  omega

theorem noResetWithin_add {n m : Nat} {l : List Nat} (h₁ : noResetWithin n l = true)
    (h₂ : noResetWithin m (resetsAfter n l) = true) : noResetWithin (m + n) l = true := by
  cases l <;> simp_all [noResetWithin, resetsAfter]
  omega

/-- A reset due after `n` boundaries. -/
theorem resets_of_resetsAfter {n m : Nat} {l rest : List Nat} (h₁ : noResetWithin n l = true)
    (h₂ : resetsAfter n l = m :: rest) : l = (m + n) :: rest := by
  cases l <;> simp_all [noResetWithin, resetsAfter]
  omega

@[simp] theorem resetsAfter_zero (l : List Nat) : resetsAfter 0 l = l := by cases l <;> rfl

@[simp] theorem resetsAfter_resetsAfter (n m : Nat) (l : List Nat) :
    resetsAfter m (resetsAfter n l) = resetsAfter (n + m) l := by
  cases l <;> simp [resetsAfter, Nat.sub_sub]

end Sys2Proof.Machine
end

