-- ==== Sys2Proof/Laws/Sequencer.lean ====
section
/-! SUPPORT. Everything the register-write sequencer `transact` can do, said once, and its runs with given answers. -/

namespace Sys2Proof.Machine

/-- The state after the transactions `ws` have all returned ok and no reset has come. -/
def okWrites (s : State) : List Write → State
  | [] => s
  | w :: ws => okWrites (s.busWrite w .ok).passBoundary ws

@[simp] theorem okWrites_nil (s : State) : okWrites s [] = s := rfl

/-- What successful transactions change, in closed form. -/
theorem okWrites_eq (s : State) (ws : List Write) :
    okWrites s ws =
      { s with
        log := s.log ++ ws.map (·.event .ok)
        image := ws.foldl (fun m w => m.write w.addr.toNat w.data) s.image
        answers := s.answers.drop ws.length
        resets := resetsAfter ws.length s.resets } := by
  induction ws generalizing s with
  | nil => simp
  | cons w ws ih =>
    rw [okWrites, ih]
    simp [Nat.add_comm]

section okWrites
variable (s : State) (ws : List Write)

@[simp] theorem okWrites_cfg : (okWrites s ws).cfg = s.cfg := by rw [okWrites_eq]
@[simp] theorem okWrites_pwr : (okWrites s ws).pwr = s.pwr := by rw [okWrites_eq]
@[simp] theorem okWrites_bri : (okWrites s ws).bri = s.bri := by rw [okWrites_eq]
@[simp] theorem okWrites_log : (okWrites s ws).log = s.log ++ ws.map (·.event .ok) := by rw [okWrites_eq]
@[simp] theorem okWrites_image :
    (okWrites s ws).image = ws.foldl (fun m w => m.write w.addr.toNat w.data) s.image := by rw [okWrites_eq]
@[simp] theorem okWrites_commands : (okWrites s ws).commands = s.commands := by rw [okWrites_eq]
@[simp] theorem okWrites_answers : (okWrites s ws).answers = s.answers.drop ws.length := by rw [okWrites_eq]
@[simp] theorem okWrites_resets : (okWrites s ws).resets = resetsAfter ws.length s.resets := by rw [okWrites_eq]

end okWrites

/-- How a transaction sequence ends, after the transactions `okWrites` has recorded. -/
inductive TransactEnd (cmd : Instr) (k : Nat) (ws : List Write) (s t : State) : Prop where
  /-- Every transaction returned ok; the response is (OK, 0). -/
  | done (rest : List BusResult) (hok : s.answers = List.replicate ws.length BusResult.ok ++ rest)
      (hreset : noResetWithin ws.length s.resets = true)
      (ht : t = (okWrites s ws).respond .ok 0)
  /-- The transactions before `w` returned ok, and `w` waits for the transport. -/
  | waits (before after : List Write) (w : Write) (hws : ws = before ++ w :: after)
      (hok : s.answers = List.replicate before.length BusResult.ok)
      (hreset : noResetWithin before.length s.resets = true)
      (ht : t = { okWrites s before with phase := .executing cmd (k + before.length + 1) })
  /-- A reset is due after transaction `w`, whatever its result. -/
  | cut (before after : List Write) (w : Write) (r : BusResult) (rest : List BusResult) (resets : List Nat)
      (hws : ws = before ++ w :: after)
      (hok : s.answers = List.replicate before.length BusResult.ok ++ r :: rest)
      (hreset : s.resets = before.length :: resets)
      (ht : t = ((okWrites s before).busWrite w r).takeReset)
  /-- Transaction `w` failed. -/
  | failed (before after : List Write) (w : Write) (rest : List BusResult)
      (hws : ws = before ++ w :: after)
      (hok : s.answers = List.replicate before.length BusResult.ok ++ BusResult.fail :: rest)
      (hreset : noResetWithin (before.length + 1) s.resets = true)
      (ht : t = ((okWrites s before).busWrite w .fail).passBoundary.raise (.busWriteFailure w.addr w.index))

/-- THE INVERSION OF THE SEQUENCER: a sequence of transactions ends in one of four ways. -/
theorem transact_cases (cmd : Instr) (k : Nat) (ws : List Write) (s : State) :
    TransactEnd cmd k ws s (transact cmd k ws s) := by
  induction ws generalizing k s with
  | nil => exact .done s.answers (by simp) (by simp) rfl
  | cons w ws ih =>
    rw [transact]
    cases ha : s.answers with
    | nil => exact .waits [] ws w rfl (by simpa using ha) (by simp) (by simp [ha])
    | cons r rest =>
      simp only [List.head?_cons]
      cases hd : (s.busWrite w r).resetDue with
      | true =>
        obtain ⟨resets, hr⟩ := resetDue_iff.1 hd
        exact .cut [] ws w r rest resets rfl (by simpa using ha) hr (by simp)
      | false =>
        have hr : noResetWithin 1 s.resets = true := resetDue_false_iff.1 hd
        cases r with
        | fail => exact .failed [] ws w rest rfl (by simpa using ha) hr (by simp)
        | ok =>
          simp only [Bool.false_eq_true, if_false]
          generalize hs₂ : (s.busWrite w .ok).passBoundary = s₂
          have hans : s₂.answers = rest := by simp [← hs₂, ha]
          have hres : s₂.resets = resetsAfter 1 s.resets := by simp [← hs₂]
          have e : ∀ l, okWrites s₂ l = okWrites s (w :: l) := fun l => by rw [okWrites, hs₂]
          have hno : ∀ n, noResetWithin n s₂.resets = true → noResetWithin (n + 1) s.resets = true :=
            fun n hn => noResetWithin_add hr (hres ▸ hn)
          cases ih (k + 1) s₂ with
          | done rest' hok hreset ht =>
            exact .done rest' (by simp [ha, ← hans, hok, List.replicate_succ]) (hno _ hreset) (by rw [ht, e])
          | waits before after w' hws hok hreset ht =>
            refine .waits (w :: before) after w' (by simp [hws]) (by simp [ha, ← hans, hok, List.replicate_succ])
              (hno _ hreset) ?_
            rw [ht, e, List.length_cons, Nat.add_assoc k, Nat.add_comm 1]
          | cut before after w' r' rest' resets hws hok hreset ht =>
            refine .cut (w :: before) after w' r' rest' resets (by simp [hws])
              (by simp [ha, ← hans, hok, List.replicate_succ]) ?_ (by rw [ht, e])
            exact resets_of_resetsAfter hr (hres ▸ hreset)
          | failed before after w' rest' hws hok hreset ht =>
            exact .failed (w :: before) after w' rest' (by simp [hws])
              (by simp [ha, ← hans, hok, List.replicate_succ]) (hno _ hreset) (by rw [ht, e])

/-- However it ends, a sequence adds to the trace its first transactions, in order, each with some result. -/
theorem TransactEnd.trace_adds {cmd : Instr} {k : Nat} {ws : List Write} {s t : State} (h : TransactEnd cmd k ws s t) :
    ∃ ts : List Transaction, t.trace = s.trace ++ ts ∧
      ts.map (fun x => (x.addr, x.data)) <+: ws.map (fun w => (w.addr, w.data)) := by
  have pairs : ∀ l : List Write, ((l.map fun w => (⟨w.addr, w.data, .ok⟩ : Transaction)).map fun x => (x.addr, x.data)) =
      l.map fun w => (w.addr, w.data) := fun l => by simp
  cases h with
  | done rest hok hreset ht =>
    subst ht
    refine ⟨ws.map fun w => ⟨w.addr, w.data, .ok⟩, ?_, by rw [pairs]⟩
    rw [trace_of_log (respond_log ..), trace_of_log (okWrites_log ..), transactions_of_events]
    simp
  | waits before after w hws hok hreset ht =>
    subst ht hws
    refine ⟨before.map fun w => ⟨w.addr, w.data, .ok⟩, ?_, by rw [pairs, List.map_append]; exact List.prefix_append ..⟩
    rw [← transactions_of_events]
    exact trace_of_log (okWrites_log ..)
  | cut before after w r rest resets hws hok hreset ht =>
    subst ht hws
    refine ⟨(before.map fun w => ⟨w.addr, w.data, .ok⟩) ++ [⟨w.addr, w.data, r⟩], ?_, ?_⟩
    · rw [trace_of_log (takeReset_log ..), trace_of_log (busWrite_log ..), trace_of_log (okWrites_log ..),
        transactions_of_events]
      simp [Write.event]
    · rw [List.map_append, pairs]
      exact ⟨after.map fun w => (w.addr, w.data), by simp⟩
  | failed before after w rest hws hok hreset ht =>
    subst ht hws
    refine ⟨(before.map fun w => ⟨w.addr, w.data, .ok⟩) ++ [⟨w.addr, w.data, .fail⟩], ?_, ?_⟩
    · rw [raise_eq_respond, trace_of_log (respond_log ..), trace_of_log (s := (okWrites s before).busWrite w .fail)
          (new := []) (by simp), trace_of_log (busWrite_log ..), trace_of_log (okWrites_log ..), transactions_of_events]
      simp [Write.event]
    · rw [List.map_append, pairs]
      exact ⟨after.map fun w => (w.addr, w.data), by simp⟩

/-- The first transactions ok and no reset: the sequence stands where it would start with the others. -/
theorem transact_after_ok (cmd : Instr) (k : Nat) (before after : List Write) (s : State) (rest : List BusResult)
    (ha : s.answers = List.replicate before.length BusResult.ok ++ rest)
    (hr : noResetWithin before.length s.resets = true) :
    transact cmd k (before ++ after) s = transact cmd (k + before.length) after (okWrites s before) := by
  induction before generalizing k s with
  | nil => rfl
  | cons w before ih =>
    have hd : (s.busWrite w .ok).resetDue = false :=
      resetDue_false_iff.2 (noResetWithin_of_le (by simp) hr)
    have hh : s.answers.head? = some .ok := by simp [ha, List.replicate_succ]
    have ht : (s.busWrite w .ok).passBoundary.answers = List.replicate before.length BusResult.ok ++ rest := by
      simp [ha, List.replicate_succ]
    have hr' : noResetWithin before.length (s.busWrite w .ok).passBoundary.resets = true :=
      noResetWithin_resetsAfter (by simpa [Nat.add_comm] using hr)
    rw [List.cons_append, transact]
    simp only [hh, hd, Bool.false_eq_true, if_false]
    rw [ih _ _ ht hr', okWrites, List.length_cons, Nat.add_assoc, Nat.add_comm 1]

/-- Every transaction ok and no reset: the sequence completes. -/
theorem transact_all_ok (cmd : Instr) (k : Nat) (ws : List Write) (s : State) (rest : List BusResult)
    (ha : s.answers = List.replicate ws.length BusResult.ok ++ rest)
    (hr : noResetWithin ws.length s.resets = true) :
    transact cmd k ws s = (okWrites s ws).respond .ok 0 := by
  have := transact_after_ok cmd k ws [] s rest ha hr
  rwa [List.append_nil, transact] at this

/-- The first failure ends the command (41_display_controller.md R121). -/
theorem transact_first_failure (cmd : Instr) (k : Nat) (before after : List Write) (w : Write) (s : State)
    (rest : List BusResult) (ha : s.answers = List.replicate before.length BusResult.ok ++ BusResult.fail :: rest)
    (hr : noResetWithin (before.length + 1) s.resets = true) :
    transact cmd k (before ++ w :: after) s =
      ((okWrites s before).busWrite w .fail).passBoundary.raise (.busWriteFailure w.addr w.index) := by
  rw [transact_after_ok cmd k before _ s _ ha (noResetWithin_of_le (by omega) hr), transact]
  have hh : (okWrites s before).answers.head? = some .fail := by simp [ha]
  have hd : ((okWrites s before).busWrite w .fail).resetDue = false :=
    resetDue_false_iff.2 (by simpa using noResetWithin_resetsAfter hr)
  simp only [hh, hd, Bool.false_eq_true, if_false]

/-- A reset due after a transaction cuts the command off, without a response (70_reset_and_hazards.md R231). -/
theorem transact_cut (cmd : Instr) (k : Nat) (before after : List Write) (w : Write) (r : BusResult) (s : State)
    (rest : List BusResult) (resets : List Nat)
    (ha : s.answers = List.replicate before.length BusResult.ok ++ r :: rest)
    (hr : s.resets = before.length :: resets) :
    transact cmd k (before ++ w :: after) s = ((okWrites s before).busWrite w r).takeReset := by
  rw [transact_after_ok cmd k before _ s _ ha (by simp [hr, noResetWithin]), transact]
  have hh : (okWrites s before).answers.head? = some r := by simp [ha]
  have hd : ((okWrites s before).busWrite w r).resetDue = true :=
    resetDue_iff.2 ⟨resets, by simp [hr, resetsAfter]⟩
  simp only [hh, hd, if_true]

/-- Without an answer the block stays Executing (70_reset_and_hazards.md R240). -/
theorem transact_waits (cmd : Instr) (k : Nat) (before after : List Write) (w : Write) (s : State)
    (ha : s.answers = List.replicate before.length BusResult.ok)
    (hr : noResetWithin before.length s.resets = true) :
    transact cmd k (before ++ w :: after) s =
      { okWrites s before with phase := .executing cmd (k + before.length + 1) } := by
  rw [transact_after_ok cmd k before _ s [] (by simpa using ha) hr, transact]
  simp [ha]

end Sys2Proof.Machine
end

