-- ==== Sys2Proof/Laws/Exec.lean ====
section
/-! SUPPORT. Every meaning as its register write and its listed transactions, and what one step can do, said once. -/

namespace Sys2Proof.Machine

/-- EVERY MEANING: it answers at once, changing nothing but the log and the phase, or it runs the transactions it lists
after its register write. -/
theorem exec_cases (i : Instr) (s : State) :
    (∃ st v, listedWrites i s = [] ∧ registerWrite i s = s ∧ exec i s = .next (s.respond st v)) ∨
      (listedWrites i (registerWrite i s) ≠ [] ∧
        exec i s = .next (transact i 0 (listedWrites i (registerWrite i s)) (registerWrite i s))) := by
  cases i with
  | lookup sym => exact .inl ⟨_, _, rfl, rfl, rfl⟩
  | setBrightness val => exact .inr ⟨by simp [listedWrites], rfl⟩
  | powerOn => exact .inr ⟨by simp [listedWrites], rfl⟩
  | powerOff => exact .inr ⟨by simp [listedWrites], rfl⟩
  | clear => exact .inr ⟨by simp [listedWrites, slotWrites], rfl⟩
  | writeDigit slot mask =>
    simp only [exec, execWriteDigit, writeDigitFrom, listedWrites, registerWrite]
    cases slotLegal slot with
    | true => exact .inr ⟨by simp, rfl⟩
    | false => exact .inl ⟨_, _, rfl, trivial, rfl⟩
  | showText t => exact .inr ⟨by simp [listedWrites, slotWrites], rfl⟩
  | showSegments t => exact .inr ⟨by simp [listedWrites, slotWrites], rfl⟩
  | scale count =>
    simp only [exec, execScale]
    cases countLegal count <;> exact .inl ⟨_, _, rfl, rfl, rfl⟩
  | render count =>
    simp only [exec, execRender, renderFrom, listedWrites, registerWrite]
    cases countLegal count with
    | true => exact .inr ⟨by simp [slotWrites], rfl⟩
    | false => exact .inl ⟨_, _, rfl, trivial, rfl⟩
  | reduce raw mode cap =>
    simp only [exec, execReduce]
    cases capLegal cap <;> exact .inl ⟨_, _, rfl, rfl, rfl⟩
  | renderPos raw mode cap =>
    simp only [exec, execRenderPos, renderPosFrom, listedWrites, registerWrite]
    cases capLegal cap with
    | true => exact .inr ⟨by simp [slotWrites], rfl⟩
    | false => exact .inl ⟨_, _, rfl, trivial, rfl⟩

/-- GOING ON: a command that lists transactions goes on with those from `k` on, any other answers as its meaning. -/
theorem continueFrom_cases (i : Instr) (k : Nat) (s : State) :
    (∃ st v, listedWrites i s = [] ∧ registerWrite i s = s ∧ continueFrom i k s = .next (s.respond st v)) ∨
      (listedWrites i s ≠ [] ∧ continueFrom i k s = .next (transact i k ((listedWrites i s).drop k) s)) := by
  cases i with
  | lookup sym => exact .inl ⟨_, _, rfl, rfl, rfl⟩
  | setBrightness val => exact .inr ⟨by simp [listedWrites], rfl⟩
  | powerOn => exact .inr ⟨by simp [listedWrites], rfl⟩
  | powerOff => exact .inr ⟨by simp [listedWrites], rfl⟩
  | clear => exact .inr ⟨by simp [listedWrites, slotWrites], rfl⟩
  | writeDigit slot mask =>
    simp only [continueFrom, writeDigitFrom, listedWrites, registerWrite]
    cases slotLegal slot with
    | true => exact .inr ⟨by simp, rfl⟩
    | false => exact .inl ⟨_, _, rfl, trivial, rfl⟩
  | showText t => exact .inr ⟨by simp [listedWrites, slotWrites], rfl⟩
  | showSegments t => exact .inr ⟨by simp [listedWrites, slotWrites], rfl⟩
  | scale count =>
    simp only [continueFrom, execScale]
    cases countLegal count <;> exact .inl ⟨_, _, rfl, rfl, rfl⟩
  | render count =>
    simp only [continueFrom, renderFrom, listedWrites, registerWrite]
    cases countLegal count with
    | true => exact .inr ⟨by simp [slotWrites], rfl⟩
    | false => exact .inl ⟨_, _, rfl, trivial, rfl⟩
  | reduce raw mode cap =>
    simp only [continueFrom, execReduce]
    cases capLegal cap <;> exact .inl ⟨_, _, rfl, rfl, rfl⟩
  | renderPos raw mode cap =>
    simp only [continueFrom, renderPosFrom, listedWrites, registerWrite]
    cases capLegal cap with
    | true => exact .inr ⟨by simp [slotWrites], rfl⟩
    | false => exact .inl ⟨_, _, rfl, trivial, rfl⟩

/-- What one step does. -/
inductive StepDoes (s t : State) : Prop where
  /-- Idle, and a reset is due. -/
  | reset (hphase : s.phase = .idle) (hdue : s.resetDue = true) (ht : t = s.takeReset)
  /-- Idle, and no word is presented. -/
  | waits (hphase : s.phase = .idle) (hdue : s.resetDue = false) (hcmd : s.commands = []) (ht : t = s)
  /-- A word is accepted and a reset takes it. -/
  | taken (w : CmdWord) (rest : List CmdWord) (hphase : s.phase = .idle) (hdue : s.resetDue = false)
      (hcmd : s.commands = w :: rest) (hdue₂ : s.passBoundary.resetDue = true)
      (ht : t = { s.passBoundary with commands := rest }.takeReset)
  /-- A word is accepted and is illegal. -/
  | illegal (w : CmdWord) (rest : List CmdWord) (r : Reject) (hphase : s.phase = .idle) (hdue : s.resetDue = false)
      (hcmd : s.commands = w :: rest) (hdue₂ : s.passBoundary.resetDue = false) (hdec : decode w = .error r)
      (ht : t = ({ s.passBoundary with commands := rest }.passBoundary).raise (.illegalCommand (opcodeOf w)))
  /-- A word is accepted and its command runs. -/
  | runs (w : CmdWord) (rest : List CmdWord) (i : Instr) (hphase : s.phase = .idle) (hdue : s.resetDue = false)
      (hcmd : s.commands = w :: rest) (hdue₂ : s.passBoundary.resetDue = false) (hdec : decode w = .ok i)
      (hexec : exec i { { s.passBoundary with commands := rest }.passBoundary with phase := .executing i 0 } = .next t)
  /-- The command in progress goes on. -/
  | resumes (cmd : Instr) (k : Nat) (hphase : s.phase = .executing cmd k) (hresume : continueFrom cmd (k - 1) s = .next t)

/-- THE INVERSION OF THE STEP: a step that answers a next state did one of these. -/
theorem step_cases {s t : State} (h : step s = .next t) : StepDoes s t := by
  rw [step] at h
  cases hp : s.phase with
  | executing cmd k =>
    rw [hp] at h
    exact .resumes cmd k hp h
  | idle =>
    rw [hp] at h
    simp only [fetch] at h
    cases hd : s.resetDue with
    | true =>
      simp only [hd, if_true, Host.Outcome.next.injEq] at h
      exact .reset hp hd h.symm
    | false =>
      simp only [hd, Bool.false_eq_true, if_false] at h
      cases hc : s.commands with
      | nil =>
        simp only [hc, Host.Outcome.next.injEq] at h
        exact .waits hp hd hc h.symm
      | cons w rest =>
        simp only [hc, acceptWord] at h
        cases hd₂ : ({ s.passBoundary with commands := rest } : State).resetDue with
        | true =>
          simp only [hd₂, if_true, Host.Outcome.next.injEq] at h
          exact .taken w rest hp hd hc hd₂ h.symm
        | false =>
          simp only [hd₂, Bool.false_eq_true, if_false] at h
          cases hdec : decode w with
          | error r =>
            simp only [hdec, Host.Outcome.next.injEq] at h
            exact .illegal w rest r hp hd hc hd₂ hdec h.symm
          | ok i =>
            simp only [hdec] at h
            exact .runs w rest i hp hd hc hd₂ hdec h

end Sys2Proof.Machine
end

