-- ==== Sys2Proof/Laws/PerInstr.lean ====
section
/-! SUPPORT. The family EncodedFields: what the encoder puts into a word, one lemma for each constructor of Instr. -/

namespace Sys2Proof.Laws.EncodedFields

/-- The word of `i` carries its opcode, the opcode map gives its format, and no reserved bit is set
(30_encoding.md R65, R66). -/
def Statement (i : Instr) : Prop :=
  field (encode i) 0 8 = i.opcode ∧ formatOf i.opcode = some i.format ∧ encode i &&& i.format.reservedMask = 0#72

/-- Format V: nothing above A. -/
theorem format_V (opc : Byte) (a : Word32) : wordOfFields opc a 0 &&& Format.V.reservedMask = 0#72 := by
  rw [reserved_V]
  simp

/-- Format N: nothing above the opcode. -/
theorem format_N (opc : Byte) : wordOfFields opc 0 0 &&& Format.N.reservedMask = 0#72 := by
  rw [reserved_N]
  ext i hi
  simp only [field, wordOfFields, BitVec.getElem_extractLsb', BitVec.getLsbD_append]
  simp

/-- Format L: nothing above the symbol. -/
theorem format_L (opc sym : Byte) : wordOfFields opc (sym.setWidth 32) 0 &&& Format.L.reservedMask = 0#72 := by
  rw [reserved_L]
  ext i hi
  simp only [field, wordOfFields, BitVec.getElem_extractLsb', BitVec.getLsbD_append]
  have h : ¬ 16 + i < 8 := by omega
  have h₂ : 8 ≤ 16 + i - 8 := by omega
  simp [h, h₂]

/-- Format T: nothing above LEN. -/
theorem format_T (opc : Byte) (a : Word32) (len : Byte) :
    wordOfFields opc a (len.setWidth 32) &&& Format.T.reservedMask = 0#72 := by
  rw [reserved_T, field_in_Bf _ _ _ (by decide) (by decide)]
  ext i hi
  simp

/-- Format P: nothing above CAP. -/
theorem format_P (opc : Byte) (a : Word32) (mode : Mode) (cap : Byte) :
    wordOfFields opc a (fieldModeCap mode cap) &&& Format.P.reservedMask = 0#72 := by
  rw [reserved_P, field_in_Bf _ _ _ (by decide) (by decide)]
  ext i hi
  simp only [fieldModeCap, BitVec.getElem_extractLsb', BitVec.getLsbD_append]
  have h : ¬ 56 - 40 + i < 8 := by omega
  have h₂ : ¬ 56 - 40 + i - 8 < 8 := by omega
  simp [h, h₂]

theorem lookup (sym : Byte) : Statement (.lookup sym) := ⟨field_opc .., rfl, format_L _ _⟩
theorem setBrightness (val : Int) : Statement (.setBrightness val) := ⟨field_opc .., rfl, format_V _ _⟩
theorem powerOn : Statement .powerOn := ⟨field_opc .., rfl, format_N _⟩
theorem powerOff : Statement .powerOff := ⟨field_opc .., rfl, format_N _⟩
theorem clear : Statement .clear := ⟨field_opc .., rfl, format_N _⟩
theorem writeDigit (slot : Int) (mask : Word32) : Statement (.writeDigit slot mask) :=
  ⟨field_opc .., rfl, reserved_D _⟩
theorem showText (elems : Elements) : Statement (.showText elems) := ⟨field_opc .., rfl, format_T _ _ _⟩
theorem showSegments (elems : Elements) : Statement (.showSegments elems) := ⟨field_opc .., rfl, format_T _ _ _⟩
theorem scale (count : Int) : Statement (.scale count) := ⟨field_opc .., rfl, format_V _ _⟩
theorem render (count : Int) : Statement (.render count) := ⟨field_opc .., rfl, format_V _ _⟩
theorem reduce (raw : Int) (mode : Mode) (cap : Byte) : Statement (.reduce raw mode cap) :=
  ⟨field_opc .., rfl, format_P _ _ _ _⟩
theorem renderPos (raw : Int) (mode : Mode) (cap : Byte) : Statement (.renderPos raw mode cap) :=
  ⟨field_opc .., rfl, format_P _ _ _ _⟩

end Sys2Proof.Laws.EncodedFields
end

