-- ==== Sys2Proof/Laws/Terms.lean ====
section
/-! SUPPORT. The terms of Safety.lean: bus addresses, listed transactions, the register write, the implied image. -/

namespace Sys2Proof.Machine

/-! ### Bus addresses (20_memory.md R41, R42) -/

theorem digitAddr_toNat (cfg : Config) {slot : Nat} (h : slot ≤ 3) :
    (digitAddr cfg slot).toNat = cfg.digitBase.toNat + slot := by
  have := cfg.digitBase_le
  simp only [digitAddr, BitVec.toNat_add, BitVec.toNat_ofNat]
  omega

theorem digitAddr_inj (cfg : Config) {a b : Nat} (ha : a ≤ 3) (hb : b ≤ 3) (h : digitAddr cfg a = digitAddr cfg b) :
    a = b := by
  have := congrArg BitVec.toNat h
  rw [digitAddr_toNat cfg ha, digitAddr_toNat cfg hb] at this
  omega

theorem digitAddr_ne_ctrlAddr (cfg : Config) {slot : Nat} (h : slot ≤ 3) : digitAddr cfg slot ≠ cfg.ctrlAddr := by
  intro e
  have := congrArg BitVec.toNat e
  rw [digitAddr_toNat cfg h] at this
  rcases cfg.ctrl_apart with h' | h' <;> omega

/-! ### The register write -/

/-- A register write repeated changes nothing more. -/
@[simp] theorem registerWrite_idem (i : Instr) (s : State) : registerWrite i (registerWrite i s) = registerWrite i s := by
  cases i <;> rfl

section registerWrite
variable (i : Instr) (s : State)

@[simp] theorem registerWrite_cfg : (registerWrite i s).cfg = s.cfg := by cases i <;> rfl
@[simp] theorem registerWrite_phase : (registerWrite i s).phase = s.phase := by cases i <;> rfl
@[simp] theorem registerWrite_image : (registerWrite i s).image = s.image := by cases i <;> rfl
@[simp] theorem registerWrite_log : (registerWrite i s).log = s.log := by cases i <;> rfl
@[simp] theorem registerWrite_commands : (registerWrite i s).commands = s.commands := by cases i <;> rfl
@[simp] theorem registerWrite_answers : (registerWrite i s).answers = s.answers := by cases i <;> rfl
@[simp] theorem registerWrite_resets : (registerWrite i s).resets = s.resets := by cases i <;> rfl

end registerWrite

/-- A state whose registers a command has already written. -/
theorem registerWrite_eq_self_of {i : Instr} {s t : State} (h : registerWrite i s = s) (hp : t.pwr = s.pwr)
    (hb : t.bri = s.bri) : registerWrite i t = t := by
  cases i <;> try rfl
  · have := congrArg State.bri h
    simp only [registerWrite] at this ⊢
    rw [this, ← hb]
  · have := congrArg State.pwr h
    simp only [registerWrite] at this ⊢
    rw [this, ← hp]
  · have := congrArg State.pwr h
    simp only [registerWrite] at this ⊢
    rw [this, ← hp]

/-! ### The listed transactions -/

/-- They depend on the parameters and the registers only. -/
theorem listedWrites_congr (i : Instr) {s t : State} (hc : t.cfg = s.cfg) (hp : t.pwr = s.pwr) (hb : t.bri = s.bri) :
    listedWrites i t = listedWrites i s := by
  cases i <;> simp [listedWrites, controlWrite, hc, hp, hb]

/-- At most four. -/
theorem listedWrites_length_le (i : Instr) (s : State) : (listedWrites i s).length ≤ 4 := by
  cases i <;> simp only [listedWrites, slotWrites] <;> (try split) <;> simp

/-- Each goes to CTRL_ADDR with the control byte of the registers, or to a digit. -/
theorem mem_listedWrites {i : Instr} {s : State} {w : Write} (h : w ∈ listedWrites i s) :
    w = controlWrite s ∨ ∃ k, k ≤ 3 ∧ w.addr = digitAddr s.cfg k := by
  have slots : ∀ m, w ∈ slotWrites s.cfg m → ∃ k, k ≤ 3 ∧ w.addr = digitAddr s.cfg k := by
    intro m hm
    simp only [slotWrites, List.mem_cons, List.not_mem_nil, or_false] at hm
    rcases hm with rfl | rfl | rfl | rfl
    exacts [⟨0, by omega, rfl⟩, ⟨1, by omega, rfl⟩, ⟨2, by omega, rfl⟩, ⟨3, by omega, rfl⟩]
  cases i <;> simp only [listedWrites] at h
  case lookup => exact absurd h (List.not_mem_nil)
  case setBrightness => exact .inl (List.mem_singleton.1 h)
  case powerOn => exact .inl (List.mem_singleton.1 h)
  case powerOff => exact .inl (List.mem_singleton.1 h)
  case clear => exact .inr (slots _ h)
  case writeDigit slot mask =>
    split at h
    · rename_i hs
      obtain rfl := List.mem_singleton.1 h
      simp only [slotLegal, Bool.and_eq_true, decide_eq_true_eq] at hs
      exact .inr ⟨slot.toNat, by omega, rfl⟩
    · exact absurd h (List.not_mem_nil)
  case showText => exact .inr (slots _ h)
  case showSegments => exact .inr (slots _ h)
  case scale => exact absurd h (List.not_mem_nil)
  case render =>
    split at h
    · exact .inr (slots _ h)
    · exact absurd h (List.not_mem_nil)
  case reduce => exact absurd h (List.not_mem_nil)
  case renderPos =>
    split at h
    · exact .inr (slots _ h)
    · exact absurd h (List.not_mem_nil)

/-- A four-slot command writes no register and lists its four slots. -/
theorem fourSlot_listed {i : Instr} {s : State} {m : Masks} (h : fourSlotMasks s.cfg i = some m) :
    registerWrite i s = s ∧ listedWrites i s = slotWrites s.cfg m := by
  cases i <;> simp only [fourSlotMasks, listedWrites, registerWrite] at h ⊢ <;> (try split at h) <;>
    simp_all

/-- A four-slot command runs its four transactions. -/
theorem exec_fourSlot {i : Instr} {s : State} {m : Masks} (h : fourSlotMasks s.cfg i = some m) :
    exec i s = .next (transact i 0 (slotWrites s.cfg m) s) := by
  obtain ⟨hr, hl⟩ := fourSlot_listed h
  rcases exec_cases i s with ⟨_, _, h₀, -, -⟩ | ⟨-, e⟩
  · rw [hl] at h₀
    simp [slotWrites] at h₀
  · rw [e, hr, hl]

/-- A control command runs its one transaction after its register write. -/
theorem exec_control {i : Instr} (s : State) (h : isControl i = true) :
    exec i s = .next (transact i 0 [controlWrite (registerWrite i s)] (registerWrite i s)) := by
  cases i <;> first | rfl | simp [isControl] at h

/-! ### The sequencer does not look at the phase -/

theorem transact_phase (cmd : Instr) (k : Nat) (ws : List Write) (s : State) (p : Phase) :
    transact cmd k ws { s with phase := p } = transact cmd k ws s := by
  induction ws generalizing k s with
  | nil => rfl
  | cons w ws ih =>
    simp only [transact]
    cases s.answers.head? with
    | none => rfl
    | some r =>
      cases r with
      | fail => rfl
      | ok =>
        have e : ({ s with phase := p }.busWrite w .ok).passBoundary =
            { (s.busWrite w .ok).passBoundary with phase := p } := rfl
        simp only [e, ih]
        rfl

/-! ### The image the trace implies -/

theorem knownByte_append (a : Byte) (known : Option Byte) (ts us : List Transaction) :
    knownByte a known (ts ++ us) = knownByte a (knownByte a known ts) us := by
  induction ts generalizing known with
  | nil => rfl
  | cons t ts ih => simp [knownByte, ih]

/-- One transaction keeps the image what the trace implies. -/
theorem busWrite_image_known {s : State} (w : Write) (r : BusResult) (hwf : s.image.wf)
    (h : ∀ a, s.imageAt a = knownByte a none s.trace) (a : Byte) :
    (s.busWrite w r).imageAt a = knownByte a none (s.busWrite w r).trace := by
  have ht : (s.busWrite w r).trace = s.trace ++ [⟨w.addr, w.data, r⟩] := by
    simp [State.trace, Write.event]
  rw [ht, knownByte_append, ← h a]
  simp only [knownByte, State.imageAt]
  by_cases e : w.addr = a
  · subst e
    cases r with
    | ok => simp
    | fail => simp [Memory.read_forget_same hwf.1]
  · have e' : a.toNat ≠ w.addr.toNat := fun h => e (BitVec.eq_of_toNat_eq h.symm)
    cases r with
    | ok => simp [e, Memory.read_write_other e']
    | fail => simp [e, Memory.read_forget_other e']

end Sys2Proof.Machine
end

