-- ==== Sys2Proof/Tests/Slice0.lean ====
section
/-! SUPPORT. Small tests with expected values from the spec (95_test_vectors.md and the rules), and for each statement
with hypotheses a witness that meets them together. -/

namespace Sys2Proof.Tests

open Sys2Proof.Machine

/-! ### The test bench -/

/-- SEG_REF (40_segment_codec.md section 3). -/
def segRef : List (Byte × Byte) :=
  [(0x30, 0x3F), (0x31, 0x06), (0x32, 0x5B), (0x33, 0x4F), (0x34, 0x66), (0x35, 0x6D), (0x36, 0x7D), (0x37, 0x07),
    (0x38, 0x7F), (0x39, 0x6F), (0x41, 0x77), (0x62, 0x7C), (0x43, 0x39), (0x64, 0x5E), (0x45, 0x79), (0x46, 0x71),
    (0x2D, 0x40), (0x20, 0x00)]

/-- One choice of the open parameters (00_scope.md R8): C = 0x48, D = 0x68, INIT_POWER = 0, INIT_BRIGHTNESS = 2. -/
def cfg : Config :=
  { digitBase := 0x68, ctrlAddr := 0x48, segTable := segRef, initPower := 0, initBrightness := 2 }

/-- The Idle block with PWR, BRI, the transport's draws and the reset input. -/
def bench (pwr : BitVec 1) (bri : BitVec 3) (answers : List BusResult) (resets : List Nat) : State :=
  { cfg := cfg, pwr := pwr, bri := bri, phase := .idle, image := [], log := [], commands := [], answers := answers,
    resets := resets }

/-- Four transactions that succeed. -/
def okFour : List BusResult := [.ok, .ok, .ok, .ok]

/-- A response (STATUS, VALUE). -/
def rsp (status value : Nat) : Event := .response (BitVec.ofNat 40 (value * 256 + status))

/-- A trace entry that is ok. -/
def good (addr data : Byte) : Event := .transaction ⟨addr, data, .ok⟩

/-- A trace entry marked FAIL. -/
def failed (addr data : Byte) : Event := .transaction ⟨addr, data, .fail⟩

/-- What is seen of an outcome: the events, PWR and BRI. -/
def seen : Outcome → Option (List Event × BitVec 1 × BitVec 3)
  | .next t => some (t.log, t.pwr, t.bri)
  | .fault _ => none
  | .refused _ => none

/-- Present nine bytes and step once. -/
def send (bytes : List Byte) (s : State) : Option (List Event × BitVec 1 × BitVec 3) :=
  (wordOfBytes bytes).bind fun w => seen (step (s.present w))

/-! ### WellFormed: an ill-formed term for each check (30_encoding.md R64) -/

theorem test_wf_setBrightness : (Instr.setBrightness 2147483648).wf = false := by decide
theorem test_wf_writeDigit : (Instr.writeDigit (-2147483649) 0).wf = false := by decide
theorem test_wf_scale : (Instr.scale 2147483648).wf = false := by decide
theorem test_wf_render : (Instr.render (-2147483649)).wf = false := by decide
theorem test_wf_reduce : (Instr.reduce 2147483648 .wrap 31).wf = false := by decide
theorem test_wf_renderPos : (Instr.renderPos (-2147483649) .bounded 31).wf = false := by decide

/-! ### Decoding, words written out from 30_encoding.md R63 and R65 -/

theorem test_decode_lookup : decodeBytes [0x01, 0x31, 0, 0, 0, 0, 0, 0, 0] = .ok (.lookup 0x31) := by decide
theorem test_decode_setBrightness :
    decodeBytes [0x02, 0xFF, 0xFF, 0xFF, 0x7F, 0, 0, 0, 0] = .ok (.setBrightness 2147483647) := by decide
theorem test_decode_powerOn : decodeBytes [0x03, 0, 0, 0, 0, 0, 0, 0, 0] = .ok .powerOn := by decide
theorem test_decode_powerOff : decodeBytes [0x04, 0, 0, 0, 0, 0, 0, 0, 0] = .ok .powerOff := by decide
theorem test_decode_clear : decodeBytes [0x05, 0, 0, 0, 0, 0, 0, 0, 0] = .ok .clear := by decide
/-- 95_test_vectors.md 2.1: format D has no reserved bits. -/
theorem test_decode_writeDigit :
    decodeBytes [0x06, 0xFF, 0xFF, 0xFF, 0xFF, 0xFF, 0xFF, 0xFF, 0xFF] = .ok (.writeDigit (-1) 0xFFFFFFFF) := by decide
theorem test_decode_showText :
    decodeBytes [0x07, 0x31, 0x32, 0x99, 0xAA, 0x02, 0, 0, 0] = .ok (.showText ⟨2, 0x31, 0x32, 0x99, 0xAA⟩) := by decide
theorem test_decode_showSegments :
    decodeBytes [0x08, 0x80, 0x11, 0x22, 0x33, 0xFF, 0, 0, 0] = .ok (.showSegments ⟨255, 0x80, 0x11, 0x22, 0x33⟩) := by
  decide
theorem test_decode_scale : decodeBytes [0x09, 0xFF, 0xFF, 0xFF, 0xFF, 0, 0, 0, 0] = .ok (.scale (-1)) := by decide
theorem test_decode_render :
    decodeBytes [0x0A, 0, 0, 0, 0x80, 0, 0, 0, 0] = .ok (.render (-2147483648)) := by decide
theorem test_decode_reduce :
    decodeBytes [0x0B, 0x28, 0, 0, 0, 0x01, 0x1F, 0, 0] = .ok (.reduce 40 .bounded 31) := by decide
theorem test_decode_renderPos :
    decodeBytes [0x0C, 0xFF, 0xFF, 0xFF, 0xFF, 0, 0xFF, 0, 0] = .ok (.renderPos (-1) .wrap 255) := by decide

/-- 95_test_vectors.md 2.1, the illegal opcodes (R67). -/
theorem test_decode_undefined_opcodes :
    decodeBytes [0, 0, 0, 0, 0, 0, 0, 0, 0] = .error .undefinedOpcode ∧
    decodeBytes [0x0D, 0, 0, 0, 0, 0, 0, 0, 0] = .error .undefinedOpcode ∧
    decodeBytes [0xFF, 0xFF, 0xFF, 0xFF, 0xFF, 0xFF, 0xFF, 0xFF, 0xFF] = .error .undefinedOpcode := by decide

/-- 95_test_vectors.md 2.1, the reserved bits (R66). -/
theorem test_decode_reserved_bits :
    decodeBytes [0x03, 0x01, 0, 0, 0, 0, 0, 0, 0] = .error .reservedBit ∧
    decodeBytes [0x05, 0, 0, 0, 0, 0, 0, 0, 0x80] = .error .reservedBit ∧
    decodeBytes [0x01, 0x31, 0x01, 0, 0, 0, 0, 0, 0] = .error .reservedBit ∧
    decodeBytes [0x02, 0x05, 0, 0, 0, 0x01, 0, 0, 0] = .error .reservedBit ∧
    decodeBytes [0x07, 0x31, 0x32, 0, 0, 0x02, 0x01, 0, 0] = .error .reservedBit ∧
    decodeBytes [0x0B, 0x05, 0, 0, 0, 0, 0x1F, 0x01, 0] = .error .reservedBit := by decide

/-- 95_test_vectors.md 2.1, the illegal modes (R69). -/
theorem test_decode_illegal_modes :
    decodeBytes [0x0B, 0x05, 0, 0, 0, 0x02, 0x1F, 0, 0] = .error .illegalMode ∧
    decodeBytes [0x0C, 0x05, 0, 0, 0, 0xFF, 0x1F, 0, 0] = .error .illegalMode := by decide

/-- Nine bytes make a command, and no other number does (R60). -/
theorem test_decode_length : decodeBytes [0x03, 0, 0, 0, 0, 0, 0, 0] = .error .wrongLength := by decide

/-- The host's numbering: bit 0 is the least significant bit of B0. -/
theorem test_decodeTableWord :
    decodeTableWord 72 0x1FF0000000206 = some (.writeDigit 2 0x1FF) ∧ decodeTableWord 72 0x10000000502 = none ∧ decodeTableWord 8 0x03 = some .powerOn := by decide

/-! ### The assembler (30_encoding.md R73, R74) -/

theorem test_assemble_forms :
    assemble "LOOKUP 'a'" = some (.lookup 0x61) ∧
    assemble "SET_BRIGHTNESS -5" = some (.setBrightness (-5)) ∧
    assemble "WRITE_DIGIT 2, 0x1FF" = some (.writeDigit 2 0x1FF) ∧
    assemble "SHOW_SEGMENTS [0x80, 0xFF, 0x01]" = some (.showSegments ⟨3, 0x80, 0xFF, 0x01, 0⟩) ∧
    assemble "REDUCE -1, WRAP, 31" = some (.reduce (-1) .wrap 31) ∧
    assemble "POWER_ON" = some .powerOn ∧ assemble "SCALE 0x1f" = some (.scale 31) := by decide +kernel

/-- The words of 95_test_vectors.md 2.4 and 2.6. -/
theorem test_assembled_words :
    assembleWord "SHOW_TEXT \"12\"" = wordOfBytes [0x07, 0x31, 0x32, 0, 0, 0x02, 0, 0, 0] ∧
    assembleWord "SHOW_TEXT \"12345\"" = wordOfBytes [0x07, 0x31, 0x32, 0x33, 0x34, 0x05, 0, 0, 0] ∧
    assembleWord "WRITE_DIGIT 3, -1" = wordOfBytes [0x06, 0x03, 0, 0, 0, 0xFF, 0xFF, 0xFF, 0xFF] ∧
    assembleWord "REDUCE 7, BOUNDED, 2" = wordOfBytes [0x0B, 0x07, 0, 0, 0, 0x01, 0x02, 0, 0] := by decide +kernel

/-- What does not fit is refused. -/
theorem test_assemble_refuses :
    assemble "LOOKUP 256" = none ∧ assemble "SCALE 2147483648" = none ∧ assemble "CLEAR 1" = none ∧
    assemble "SCALE 1F" = none ∧ assemble "SCALE 0xG" = none ∧ assemble "SHOW_SEGMENTS [256]" = none ∧
    assemble "SHOW_SEGMENTS \"12\"" = none ∧ assemble "NOP" = none := by decide +kernel

/-! ### One step of each command, values from 95_test_vectors.md -/

/-- 2.2. -/
theorem test_lookup_known :
    send [0x01, 0x32, 0, 0, 0, 0, 0, 0, 0] (bench 1 3 [] []) = some ([rsp 0 0x5B], 1, 3) := by decide
theorem test_lookup_unknown :
    send [0x01, 0x61, 0, 0, 0, 0, 0, 0, 0] (bench 1 3 [] []) = some ([rsp 0 0], 1, 3) := by decide

/-- E1 and P4. -/
theorem test_setBrightness_off :
    send [0x02, 0x09, 0, 0, 0, 0, 0, 0, 0] (bench 0 4 [.ok] []) = some ([good 0x48 0x70, rsp 0 0], 0, 7) := by decide
/-- 2.3: a failed control write keeps the register. -/
theorem test_setBrightness_fail :
    send [0x02, 0x06, 0, 0, 0, 0, 0, 0, 0] (bench 1 3 [.fail] []) =
      some ([failed 0x48 0x61, rsp 3 0x4800], 1, 6) := by decide

/-- 2.3. -/
theorem test_powerOn :
    send [0x03, 0, 0, 0, 0, 0, 0, 0, 0] (bench 0 5 [.ok] []) = some ([good 0x48 0x51, rsp 0 0], 1, 5) := by decide
/-- 2.7: reset after the transaction has returned; no response. -/
theorem test_powerOn_reset :
    send [0x03, 0, 0, 0, 0, 0, 0, 0, 0] (bench 0 6 [.ok] [2]) = some ([good 0x48 0x61, .reset], 0, 2) := by decide

/-- 2.3. -/
theorem test_powerOff :
    send [0x04, 0, 0, 0, 0, 0, 0, 0, 0] (bench 1 7 [.ok] []) = some ([good 0x48 0x70, rsp 0 0], 0, 7) := by decide
theorem test_powerOff_fail :
    send [0x04, 0, 0, 0, 0, 0, 0, 0, 0] (bench 1 3 [.fail] []) =
      some ([failed 0x48 0x30, rsp 3 0x4800], 0, 3) := by decide

/-- 2.4, draw fail on the 4th. -/
theorem test_clear_fail :
    send [0x05, 0, 0, 0, 0, 0, 0, 0, 0] (bench 1 6 [.ok, .ok, .ok, .fail] []) =
      some ([good 0x68 0, good 0x69 0, good 0x6A 0, failed 0x6B 0, rsp 3 0x6B03], 1, 6) := by decide
/-- 2.7: reset after the 2nd transaction of CLEAR. -/
theorem test_clear_reset :
    send [0x05, 0, 0, 0, 0, 0, 0, 0, 0] (bench 1 6 okFour [3]) =
      some ([good 0x68 0, good 0x69 0, .reset], 0, 2) := by decide

/-- E11. -/
theorem test_writeDigit :
    send [0x06, 0x02, 0, 0, 0, 0xFF, 0x01, 0, 0] (bench 1 6 [.ok] []) =
      some ([good 0x6A 0xFF, rsp 0 0], 1, 6) := by decide
/-- 2.4: the failed write's index is 0. -/
theorem test_writeDigit_fail :
    send [0x06, 0x01, 0, 0, 0, 0x06, 0, 0, 0] (bench 1 6 [.fail] []) =
      some ([failed 0x69 0x06, rsp 3 0x6900], 1, 6) := by decide

/-- 2.4: the fifth symbol has no effect. -/
theorem test_showText :
    send [0x07, 0x31, 0x32, 0x33, 0x34, 0x05, 0, 0, 0] (bench 1 6 okFour []) =
      some ([good 0x68 0x06, good 0x69 0x5B, good 0x6A 0x4F, good 0x6B 0x66, rsp 0 0], 1, 6) := by decide
/-- 2.1 with 2.4: absent symbols are blank whatever their bytes. -/
theorem test_showText_short :
    send [0x07, 0x31, 0x32, 0x99, 0xAA, 0x02, 0, 0, 0] (bench 1 6 okFour []) =
      some ([good 0x68 0x06, good 0x69 0x5B, good 0x6A 0, good 0x6B 0, rsp 0 0], 1, 6) := by decide

/-- 2.4. -/
theorem test_showSegments :
    send [0x08, 0x80, 0x11, 0x22, 0x33, 0x01, 0, 0, 0] (bench 1 6 okFour []) =
      some ([good 0x68 0x80, good 0x69 0, good 0x6A 0, good 0x6B 0, rsp 0 0], 1, 6) := by decide
theorem test_showSegments_fail :
    send [0x08, 0x01, 0x02, 0x03, 0x04, 0x04, 0, 0, 0] (bench 1 6 [.ok, .ok, .fail, .ok] []) =
      some ([good 0x68 0x01, good 0x69 0x02, failed 0x6A 0x03, rsp 3 0x6A02], 1, 6) := by decide

/-- E4. -/
theorem test_scale :
    send [0x09, 0x0B, 0, 0, 0, 0, 0, 0, 0] (bench 1 6 [] []) = some ([rsp 0 0xFF070000], 1, 6) := by decide
/-- E10. -/
theorem test_scale_out_of_range :
    send [0x09, 0x20, 0, 0, 0, 0, 0, 0, 0] (bench 1 6 [] []) = some ([rsp 2 0x20], 1, 6) := by decide

/-- E5. -/
theorem test_render :
    send [0x0A, 0x11, 0, 0, 0, 0, 0, 0, 0] (bench 1 6 okFour []) =
      some ([good 0x68 0, good 0x69 0x01, good 0x6A 0xFF, good 0x6B 0xFF, rsp 0 0], 1, 6) := by decide
/-- 2.5. -/
theorem test_render_out_of_range :
    send [0x0A, 0, 0, 0, 0x80, 0, 0, 0, 0] (bench 1 6 okFour []) = some ([rsp 2 0x80000000], 1, 6) := by decide

/-- E7. -/
theorem test_reduce_wrap :
    send [0x0B, 0xFF, 0xFF, 0xFF, 0xFF, 0, 0x1F, 0, 0] (bench 1 6 [] []) = some ([rsp 0 30], 1, 6) := by decide
/-- E8. -/
theorem test_reduce_bounded :
    send [0x0B, 0x28, 0, 0, 0, 0x01, 0x1F, 0, 0] (bench 1 6 [] []) = some ([rsp 0 30], 1, 6) := by decide

/-- P2, command 5. -/
theorem test_renderPos :
    send [0x0C, 0x11, 0, 0, 0, 0, 0x20, 0, 0] (bench 1 7 [.ok, .ok, .fail] []) =
      some ([good 0x68 0, good 0x69 0x01, failed 0x6A 0xFF, rsp 3 0x6A02], 1, 7) := by decide
/-- 2.6. -/
theorem test_renderPos_out_of_range :
    send [0x0C, 0, 0, 0, 0, 0x01, 0xFF, 0, 0] (bench 1 7 okFour []) = some ([rsp 2 0xFF], 1, 7) := by decide

/-- P3, command 2. -/
theorem test_illegal_word :
    send [0x03, 0x01, 0, 0, 0, 0, 0, 0, 0] (bench 0 2 [.ok] []) = some ([rsp 4 0x03], 0, 2) := by decide

/-- 2.7: reset while Idle. -/
theorem test_reset_idle : seen (step (bench 1 6 [] [0])) = some ([.reset], 0, 2) := by decide

/-- The word the host places runs in the very next step. -/
theorem test_withFetchWord :
    seen (step ((bench 0 5 [.ok] []).withFetchWord 72 0x03)) = some ([good 0x48 0x51, rsp 0 0], 1, 5) := by decide

/-! ### Witnesses: states and operands that meet the hypotheses of the statements -/

/-- A state whose command CLEAR waits in its 2nd transaction. -/
def waiting : State :=
  { bench 1 6 [] [] with
    phase := .executing .clear 2, image := [(0x68, 0)], log := [.transaction ⟨0x68, 0, .ok⟩] }

/-- DIGIT_BASE at its largest, the last slot at the top of the address space; slots next to the legal ones. -/
theorem witness_DigitAddressesDoNotWrap :
    (∃ c : Config, c.digitBase = 0xFC ∧ (3 : Nat) ≤ 3) ∧ ((-1 : Int) < 0 ∨ 3 < (-1 : Int)) ∧ ((4 : Int) < 0 ∨ 3 < (4 : Int)) :=
  ⟨⟨{ digitBase := 0xFC, ctrlAddr := 0 }, rfl, le_refl 3⟩, by decide, by decide⟩

theorem witness_DecodeOfEncode :
    (Instr.writeDigit (-2147483648) 0xFFFFFFFF).wf = true ∧ (Instr.setBrightness 2147483647).wf = true ∧
    (Instr.renderPos 2147483647 .bounded 255).wf = true ∧ (Instr.showText ⟨255, 1, 2, 3, 4⟩).wf = true := by decide

theorem witness_EncodeOfDecode : decode 0x1FF0000000206#72 = .ok (.writeDigit 2 0x1FF) ∧ decode 0x05#72 = .ok .clear := by decide

/-- A word of each illegal kind, and a legal one. -/
theorem witness_IllegalWordsExactly :
    illegalWord 0x00#72 ∧ illegalWord 0x0D#72 ∧ illegalWord 0xFF#72 ∧ illegalWord 0x103#72 ∧
    illegalWord 0x13101#72 ∧ illegalWord 0x10000000502#72 ∧ illegalWord 0x1000000000007#72 ∧
    illegalWord 0x10000000000000B#72 ∧ illegalWord 0x2000000050B#72 ∧
    ¬ illegalWord 0xFFFFFFFFFFFFFFFF06#72 := by
  simp only [illegalWord]
  refine ⟨?_, ?_, ?_, ?_, ?_, ?_, ?_, ?_, ?_, ?_⟩ <;> decide

theorem witness_AssemblerTakesWhatFits :
    (("WRAP".toList = "WRAP".toList ∧ Mode.wrap = .wrap) ∨ ("WRAP".toList = "BOUNDED".toList ∧ Mode.wrap = .bounded)) ∧
    (("BOUNDED".toList = "WRAP".toList ∧ Mode.bounded = .wrap) ∨
      ("BOUNDED".toList = "BOUNDED".toList ∧ Mode.bounded = .bounded)) ∧
    (⟨5, 0, 255, 1, 2⟩ : Elements) =
      { len := BitVec.ofNat 8 ([0, 255, 1, 2, 3] : List Int).length
        e0 := BitVec.ofInt 8 (([0, 255, 1, 2, 3] : List Int).getD 0 0)
        e1 := BitVec.ofInt 8 (([0, 255, 1, 2, 3] : List Int).getD 1 0)
        e2 := BitVec.ofInt 8 (([0, 255, 1, 2, 3] : List Int).getD 2 0)
        e3 := BitVec.ofInt 8 (([0, 255, 1, 2, 3] : List Int).getD 3 0) } := by decide

theorem witness_AssembledCommandsFit :
    assembleTokens [.name "WRITE_DIGIT".toList, .num (-2147483648), .comma, .num 4294967295] =
      some (.writeDigit (-2147483648) 0xFFFFFFFF) := by decide +kernel

theorem witness_TextLiteralIsItsCodes :
    (∀ c ∈ ['1', '2', '~'], c.toNat < 128) ∧
    assembleTokens (.name "SHOW_TEXT".toList :: ([] ++ .text ['1'] :: [])) = some (.showText ⟨1, 0x31, 0, 0, 0⟩) :=
  ⟨by simp, by decide +kernel⟩

theorem witness_LookupAnswersSegMask :
    tableLookup cfg.segTable 0x31 = some 0x06 ∧ tableLookup cfg.segTable 0x61 = none ∧
    tableLookup cfg.segTable 0x20 = some 0x00 := by decide

theorem witness_SetBrightnessClampsAndSends :
    (((-1 : Int) < 0 ∧ (0 : BitVec 3) = 0) ∧ ((7 : Int) < 8 ∧ (7 : BitVec 3) = 7) ∧
      (((0 : BitVec 3).toNat : Int) = 0) ∧ (((7 : BitVec 3).toNat : Int) = 7)) ∧
    (bench 0 3 [.ok] [1]).answers = BusResult.ok :: [] ∧ noResetWithin 1 (bench 0 3 [.ok] [1]).resets = true := by decide

theorem witness_PowerCommandsWriteAndSend :
    (bench 0 3 [.ok, .fail] []).answers = BusResult.ok :: [.fail] ∧
    noResetWithin 1 (bench 0 3 [.ok, .fail] []).resets = true := by decide

theorem witness_ControlFailureKeepsRegister :
    (isControl .powerOff = true ∧ isControl .powerOn = true ∧ isControl (.setBrightness (-1)) = true) ∧
    (bench 1 3 [.fail] [1]).answers = BusResult.fail :: [] ∧ noResetWithin 1 (bench 1 3 [.fail] [1]).resets = true ∧
    (bench 1 3 [.fail] [1]).image.wf := by decide

theorem witness_RepeatedControlSendsSameByte :
    isControl (.setBrightness 9) = true ∧ (bench 1 3 [.ok, .fail] [2]).answers = BusResult.ok :: .fail :: [] ∧
    noResetWithin 2 (bench 1 3 [.ok, .fail] [2]).resets = true := by decide

/-- Four good transactions, the next reset just after them. -/
theorem witness_four_ok : (bench 1 3 okFour [4]).answers = BusResult.ok :: .ok :: .ok :: .ok :: [] ∧
    noResetWithin 4 (bench 1 3 okFour [4]).resets = true := by decide

theorem witness_ClearWritesFourZeros : (bench 1 3 okFour [4]).answers = BusResult.ok :: .ok :: .ok :: .ok :: [] ∧
    noResetWithin 4 (bench 1 3 okFour [4]).resets = true := witness_four_ok

theorem witness_WriteDigitWritesOneSlot :
    ((0 : Int) ≤ 0 ∧ (0 : Int) ≤ 3 ∧ (0 : Int) ≤ 3 ∧ (3 : Int) ≤ 3) ∧
    noResetWithin 1 (bench 1 3 [.ok] [1]).resets = true ∧ (bench 1 3 [.ok] [1]).answers = BusResult.ok :: [] ∧
    noResetWithin 1 (bench 1 3 [.fail] [1]).resets = true ∧ (bench 1 3 [.fail] [1]).answers = BusResult.fail :: [] := by
  decide

theorem witness_InvalidSlotOnlyFromWriteDigit :
    ((-1 : Int) < 0 ∨ 3 < (-1 : Int)) ∧ ((4 : Int) < 0 ∨ 3 < (4 : Int)) ∧
    ∃ t r, exec (.writeDigit 4 0x06) (bench 1 3 [] []) = .next t ∧
      t.responses = (bench 1 3 [] []).responses ++ [r] ∧ responseStatus r = 1 ∧
    ∃ t, exec (.render 31) (bench 1 3 [.fail] []) = .next t ∧
      fourSlotMasks cfg (.render 31) = some ⟨0x7F, 0xFF, 0xFF, 0xFF⟩ ∧ t.trace = [⟨0x68, 0x7F, .fail⟩] :=
  ⟨by decide, by decide, _, responseWord .invalidSlot 4, rfl, rfl, by decide, _, rfl, by decide, rfl⟩

theorem witness_ShowTextWritesLookedUpMasks : (bench 1 3 okFour [4]).answers = BusResult.ok :: .ok :: .ok :: .ok :: [] ∧
    noResetWithin 4 (bench 1 3 okFour [4]).resets = true := witness_four_ok

theorem witness_ShowSegmentsWritesRawMasks :
    (bench 1 3 okFour [4]).answers = BusResult.ok :: .ok :: .ok :: .ok :: [] ∧
    noResetWithin 4 (bench 1 3 okFour [4]).resets = true := witness_four_ok

/-- A run with a failed transaction, one that goes on to its last slot, and one with every transaction ok. -/
theorem witness_TextMaskIsLookupMask :
    (∃ t, exec (.showText ⟨1, 0x31, 9, 9, 9⟩) (bench 1 3 [.fail] []) = .next t ∧
      0 < min (⟨1, 0x31, 9, 9, 9⟩ : Elements).len.toNat 4 ∧ t.trace[0 + 0]? = some ⟨0x68, 0x06, .fail⟩) ∧
    (∃ t, step { bench 1 3 [.ok, .ok] [] with phase := .executing (.showText ⟨255, 0x31, 0x32, 0x33, 0x34⟩) 3 } = .next t ∧
      3 - 1 + 1 < min (⟨255, 0x31, 0x32, 0x33, 0x34⟩ : Elements).len.toNat 4 ∧
      t.trace[0 + 1]? = some ⟨0x6B, 0x66, .ok⟩) ∧
    3 < min (⟨255, 1, 2, 3, 0x34⟩ : Elements).len.toNat 4 ∧
    (bench 1 3 okFour [4]).answers = BusResult.ok :: .ok :: .ok :: .ok :: [] ∧
    noResetWithin 4 (bench 1 3 okFour [4]).resets = true :=
  ⟨⟨_, rfl, by decide, by decide⟩, ⟨_, rfl, by decide, by decide⟩, by decide, by decide, by decide⟩

theorem witness_ScaleMaskClosedForm : (0 ≤ 31 ∧ 0 ≤ 3) ∧ 31 ≤ 31 ∧ 3 ≤ 3 := by decide
theorem witness_ScaleAnswersPackedMasks : (0 ≤ 31 ∧ 31 ≤ 31) ∧ (0 ≤ 3 ∧ 3 ≤ 3) := by decide
theorem witness_CountLightsLowLeds : (0 ≤ 31 ∧ 31 ≤ 31) ∧ (0 < 32 ∧ 31 < 32) := by decide

theorem witness_RenderWritesScaleMasks : (0 ≤ 31 ∧ 31 ≤ 31) ∧
    (bench 1 3 okFour [4]).answers = BusResult.ok :: .ok :: .ok :: .ok :: [] ∧
    noResetWithin 4 (bench 1 3 okFour [4]).resets = true := by decide

theorem witness_OutOfRangeCauses :
    ((-1 : Int) < 0 ∨ 31 < (-1 : Int)) ∧ ((32 : Int) < 0 ∨ 31 < (32 : Int)) ∧
    ((1 : Byte).toNat < 2 ∨ 32 < (1 : Byte).toNat) ∧ ((33 : Byte).toNat < 2 ∨ 32 < (33 : Byte).toNat) ∧
    (∃ t r, exec (.render 32) (bench 1 3 [] []) = .next t ∧
      t.responses = (bench 1 3 [] []).responses ++ [r] ∧ responseStatus r = 2) ∧
    ∃ t r, exec (.reduce 5 .wrap 1) (bench 1 3 [] []) = .next t ∧
      t.responses = (bench 1 3 [] []).responses ++ [r] ∧ responseStatus r = 2 :=
  ⟨by decide, by decide, by decide, by decide,
    ⟨_, responseWord .outOfRange 32, rfl, rfl, by decide⟩, ⟨_, responseWord .outOfRange 1, rfl, rfl, by decide⟩⟩

theorem witness_WrapFormulaUnderAnyRemainder : 2 ≤ (2 : Byte).toNat ∧ (32 : Byte).toNat ≤ 32 := by decide
theorem witness_ReducedCountInRange : 2 ≤ (2 : Byte).toNat ∧ (32 : Byte).toNat ≤ 32 := by decide

/-- Wrap of -1 by 31; Bounded at and next to both ends, CAP = 2 among them. -/
theorem witness_ReduceAnswersCount :
    (2 ≤ (31 : Byte).toNat ∧ (31 : Byte).toNat ≤ 32 ∧ (0 : Int) ≤ 30 ∧ (30 : Int) < (31 : Byte).toNat ∧
      ∃ q : Int, (-1 : Int) = q * (31 : Byte).toNat + 30) ∧
    ((0 : Int) < 1 ∧ (1 : Int) = 1) ∧
    (((2 : Byte).toNat : Int) - 1 < 2 ∧ (1 : Int) ≤ 2 ∧ (1 : Int) = ((2 : Byte).toNat : Int) - 1) ∧
    ((1 : Int) ≤ 1 ∧ (1 : Int) ≤ ((2 : Byte).toNat : Int) - 1) :=
  ⟨⟨by decide, by decide, by decide, by decide, -1, by decide⟩, by decide, by decide, by decide⟩

theorem witness_RenderPosWritesReducedMasks : 2 ≤ (2 : Byte).toNat ∧ (32 : Byte).toNat ≤ 32 ∧
    (bench 1 3 okFour [4]).answers = BusResult.ok :: .ok :: .ok :: .ok :: [] ∧
    noResetWithin 4 (bench 1 3 okFour [4]).resets = true := by decide

theorem witness_RenderPosIsReduceThenRender :
    ∃ u, exec (.reduce (-1) .wrap 31) (bench 1 3 [.ok, .fail] []) = .next u ∧
      u.responses = (bench 1 3 [.ok, .fail] []).responses ++ [responseWord .ok 30] := ⟨_, rfl, rfl⟩

/-- The four-slot forms and the first failure in slot 0 and in slot 3. -/
theorem witness_FourSlotCommandStopsAtFirstFailure :
    (fourSlotMasks cfg .clear = some ⟨0, 0, 0, 0⟩ ∧
      fourSlotMasks cfg (.showText ⟨2, 0x31, 0x32, 9, 9⟩) = some ⟨0x06, 0x5B, 0, 0⟩ ∧
      fourSlotMasks cfg (.showSegments ⟨1, 0x80, 9, 9, 9⟩) = some ⟨0x80, 0, 0, 0⟩ ∧
      fourSlotMasks cfg (.render 31) = some ⟨0x7F, 0xFF, 0xFF, 0xFF⟩ ∧
      fourSlotMasks cfg (.renderPos (-1) .wrap 31) = some ⟨0x3F, 0xFF, 0xFF, 0xFF⟩) ∧
    ((bench 1 3 [.fail] [1]).answers = List.replicate 0 BusResult.ok ++ BusResult.fail :: [] ∧
      noResetWithin (0 + 1) (bench 1 3 [.fail] [1]).resets = true) ∧
    (bench 1 3 [.ok, .ok, .ok, .fail] [4]).answers = List.replicate 3 BusResult.ok ++ BusResult.fail :: [] ∧
    noResetWithin (3 + 1) (bench 1 3 [.ok, .ok, .ok, .fail] [4]).resets = true := by decide

theorem witness_FailureIndexTellsSlots :
    fourSlotMasks cfg .clear = some ⟨0, 0, 0, 0⟩ ∧ (bench 1 3 [.ok, .fail] [2]).image.wf ∧
    (bench 1 3 [.ok, .fail] [2]).answers = List.replicate 1 BusResult.ok ++ BusResult.fail :: [] ∧
    noResetWithin (1 + 1) (bench 1 3 [.ok, .fail] [2]).resets = true ∧ (0 < 1 ∧ 1 < 3 ∧ 3 ≤ 3) := by decide

/-- In slot 0 and in slot 3, on WRITE_DIGIT's slots 0 and 3, and on a control command, ok and failed. -/
theorem witness_ResetCutsCommandOff :
    (fourSlotMasks cfg (.render 31) = some ⟨0x7F, 0xFF, 0xFF, 0xFF⟩ ∧
      (bench 1 3 [.fail] [0, 5]).answers = List.replicate 0 BusResult.ok ++ BusResult.fail :: [] ∧
      (bench 1 3 [.fail] [0, 5]).resets = 0 :: [5] ∧
      (bench 1 3 okFour [3]).answers = List.replicate 3 BusResult.ok ++ BusResult.ok :: [] ∧
      (bench 1 3 okFour [3]).resets = 3 :: []) ∧
    ((0 : Int) ≤ 0 ∧ (0 : Int) ≤ 3 ∧ (0 : Int) ≤ 3 ∧ (3 : Int) ≤ 3) ∧
    isControl .powerOn = true ∧ (bench 1 3 [.fail] [0]).answers = BusResult.fail :: [] ∧
    (bench 1 3 [.fail] [0]).resets = 0 :: [] := by decide

/-- A run of each kind: with a response, with a reset, and one that waits. -/
theorem witness_CommandAddsTransactionsThenOneResponse :
    (∃ t, exec .clear (bench 1 3 okFour []) = .next t ∧ t.phase = .idle) ∧
    (∃ t, exec .clear (bench 1 3 okFour [3]) = .next t ∧ t.resets = []) ∧
    ∃ t, exec .clear (bench 1 3 [.ok] []) = .next t ∧ t.phase = .executing .clear 2 :=
  ⟨⟨_, rfl, rfl⟩, ⟨_, rfl, rfl⟩, _, rfl, rfl⟩

/-- A control command whose answer comes at once, and one whose answer comes late. -/
theorem witness_ControlBytesComeFromRegisters :
    (∃ t, exec (.setBrightness 9) (bench 1 3 [.fail] []) = .next t ∧
      ⟨0x48, 0x71, .fail⟩ ∈ t.trace.drop (bench 1 3 [.fail] []).trace.length ∧
      (⟨0x48, 0x71, .fail⟩ : Transaction).addr = (bench 1 3 [.fail] []).cfg.ctrlAddr) ∧
    ∃ t, step { bench 1 3 [.ok] [] with phase := .executing .powerOn 1 } = .next t ∧ ⟨0x48, 0x31, .ok⟩ ∈ t.trace :=
  ⟨⟨_, rfl, by decide, rfl⟩, _, rfl, by decide⟩

theorem witness_CommandsWriteOnlyTheirAddresses :
    ∃ t, exec (.writeDigit 3 0x80) (bench 1 3 [.fail] []) = .next t ∧ t.trace = [⟨0x6B, 0x80, .fail⟩] := ⟨_, rfl, rfl⟩

/-- Two states that differ in PWR and BRI. -/
theorem witness_DigitCommandsHaveNoHiddenState :
    isControl (.render 8) = false ∧ (bench 0 0 okFour [9]).cfg = (bench 1 7 okFour [9]).cfg ∧
    (bench 0 0 okFour [9]).answers = (bench 1 7 okFour [9]).answers ∧
    (bench 0 0 okFour [9]).resets = (bench 1 7 okFour [9]).resets ∧
    (∃ t, exec (.render 8) (bench 0 0 okFour [9]) = .next t) ∧ ∃ t, exec (.render 8) (bench 1 7 okFour [9]) = .next t :=
  ⟨by decide, by decide, by decide, by decide, ⟨_, rfl⟩, _, rfl⟩

theorem witness_BootMakesDisplayKnown :
    isControl (.setBrightness 5) = true ∧ fourSlotMasks cfg (.render 31) = some ⟨0x7F, 0xFF, 0xFF, 0xFF⟩ ∧
    (bench 0 0 (.ok :: okFour) [5]).answers = BusResult.ok :: .ok :: .ok :: .ok :: .ok :: [] ∧
    noResetWithin 5 (bench 0 0 (.ok :: okFour) [5]).resets = true := by decide

/-- Without a transaction: the commands that issue none, and those whose operand is out of range. -/
theorem witness_FrameOfCommandsWithoutTransaction :
    (∃ t, exec (.lookup 0x31) (bench 1 3 [.ok] [0]) = .next t ∧ isControl (.lookup 0x31) = false ∧
      fourSlotMasks cfg (.lookup 0x31) = none) ∧
    (∃ t, exec (.render 32) (bench 1 3 [.ok] [0]) = .next t ∧ fourSlotMasks cfg (.render 32) = none) ∧
    (∃ t, exec (.renderPos 0 .wrap 33) (bench 1 3 [.ok] [0]) = .next t ∧ fourSlotMasks cfg (.renderPos 0 .wrap 33) = none) ∧
    ∃ t, exec (.writeDigit 4 0) (bench 1 3 [.ok] [0]) = .next t ∧ fourSlotMasks cfg (.writeDigit 4 0) = none ∧
      ∀ slot mask, Instr.writeDigit 4 0 = .writeDigit slot mask → slot < 0 ∨ 3 < slot :=
  ⟨⟨_, rfl, rfl, rfl⟩, ⟨_, rfl, rfl⟩, ⟨_, rfl, rfl⟩, _, rfl, rfl, fun _ _ h => by cases h; exact .inr (by decide)⟩

theorem witness_FrameOfControlCommands :
    ∃ t, exec .powerOff (bench 1 3 [.fail] [1]) = .next t ∧ isControl .powerOff = true ∧ (0x68 : Byte) ≠ cfg.ctrlAddr ∧
      noResetWithin 1 (bench 1 3 [.fail] [1]).resets = true ∧ ∀ val, Instr.powerOff ≠ .setBrightness val :=
  ⟨_, rfl, rfl, by decide, by decide, fun _ h => by cases h⟩

theorem witness_FrameOfWriteDigit :
    ∃ t, exec (.writeDigit 3 0xFF) (bench 1 3 [.ok] [1]) = .next t ∧ (0x68 : Byte) ≠ digitAddr cfg (3 : Int).toNat ∧
      noResetWithin 1 (bench 1 3 [.ok] [1]).resets = true :=
  ⟨_, rfl, by decide, by decide⟩

theorem witness_FrameOfFourSlotCommands :
    ∃ t, exec (.render 8) (bench 1 3 okFour [4]) = .next t ∧ fourSlotMasks cfg (.render 8) = some ⟨0, 0, 0, 0xFF⟩ ∧
      (∀ k, k ≤ 3 → (0x48 : Byte) ≠ digitAddr cfg k) ∧ noResetWithin 4 (bench 1 3 okFour [4]).resets = true :=
  ⟨_, rfl, by decide, by decide, by decide⟩

theorem witness_IllegalWordIsAnswered :
    illegalWord 0x2000000050B#72 ∧ (bench 1 3 [] [2]).phase = .idle ∧
    ((bench 1 3 [] [2]).present 0x2000000050B#72).commands = 0x2000000050B#72 :: [] ∧
    noResetWithin 2 (bench 1 3 [] [2]).resets = true := by
  simp only [illegalWord]; decide

theorem witness_StepRunsDecodedCommand :
    (bench 1 3 [.ok] [2]).phase = .idle ∧ ((bench 1 3 [.ok] [2]).present 0x03#72).commands = 0x03#72 :: [] ∧
    decode 0x03#72 = .ok .powerOn ∧ noResetWithin 2 (bench 1 3 [.ok] [2]).resets = true := by decide

theorem witness_IdleBlockWaits :
    (bench 1 3 [.ok] [1]).phase = .idle ∧ (bench 1 3 [.ok] [1]).commands = [] ∧
    noResetWithin 1 (bench 1 3 [.ok] [1]).resets = true := by decide

theorem witness_ResetSetsInitialRegisters :
    (bench 1 6 [] [0, 7]).phase = .idle ∧ (bench 1 6 [] [0, 7]).resets = 0 :: [7] := by decide

theorem witness_WordsAreHeldInOrder :
    (∃ t, waiting.phase = .executing .clear 2 ∧ step (waiting.present 0x03#72) = .next t ∧ t.commands = [0x03#72]) ∧
    ∃ t, step (((bench 1 3 [.ok] []).present 0x03#72).present 0x04#72) = .next t ∧ t.commands = [0x04#72] :=
  ⟨⟨_, rfl, rfl, rfl⟩, _, rfl, rfl⟩

/-- A changed PWR by a command and by a reset, and a changed BRI. -/
theorem witness_OnlyControlCommandsWriteRegisters :
    (∃ t, step ((bench 0 3 [.fail] []).present 0x03#72) = .next t ∧ t.pwr ≠ (bench 0 3 [.fail] []).pwr) ∧
    (∃ t, step (bench 1 3 [] [0]) = .next t ∧ t.pwr ≠ (bench 1 3 [] [0]).pwr) ∧
    ∃ t, step ((bench 0 3 [.ok] []).present 0x902#72) = .next t ∧ t.bri ≠ (bench 0 3 [.ok] []).bri :=
  ⟨⟨_, rfl, by decide⟩, ⟨_, rfl, by decide⟩, _, rfl, by decide⟩

theorem witness_LogOnlyGrows : ∃ t, step { waiting with answers := [.fail] } = .next t ∧ t.log.length = 3 := ⟨_, rfl, rfl⟩

/-- The invariant holds in a state in the middle of a command. -/
theorem waiting_inv : waiting.Inv where
  image_wf := by decide
  image_known := by decide
  trace_legal := fun t ht => by
    obtain rfl : t = ⟨0x68, 0, .ok⟩ := by simpa [State.trace, waiting, Event.transaction?] using ht
    exact ⟨by decide, fun h => absurd h (by decide)⟩
  phase_legal := ⟨rfl, rfl, by decide, by decide, [], rfl⟩
  responses_legal := fun r hr => by simp [State.responses, waiting, Event.response?] at hr

theorem witness_SilentTransportHangs :
    waiting.Inv ∧ waiting.phase = .executing .clear 2 ∧ waiting.answers = [] := ⟨waiting_inv, rfl, rfl⟩

theorem witness_TransportDelayIsInvisible :
    ∃ t, exec .clear { bench 1 3 [] [9] with answers := [.ok] } = .next t ∧ t.phase = .executing .clear 2 := ⟨_, rfl, rfl⟩

theorem witness_InvariantKeptByStep :
    ∃ t, waiting.Inv ∧ step waiting = .next t := ⟨_, waiting_inv, rfl⟩

end Sys2Proof.Tests
end

section
/-! SUPPORT. The control byte (20_memory.md R44) and the command that names a slot without an address (R42). -/

namespace Sys2Proof.Machine

/-! ### The control byte -/

/-- The formula of R44 is its table of bit fields, the highest first. -/
theorem ctrlByte_eq_append (pwr : BitVec 1) (bri : BitVec 3) : ctrlByte pwr bri = 0#1 ++ bri ++ 0#3 ++ pwr := by
  revert pwr bri
  decide

section fields
variable (pwr : BitVec 1) (bri : BitVec 3)

@[simp] theorem ctrlByte_power : (ctrlByte pwr bri).extractLsb' 0 1 = pwr := by
  rw [ctrlByte_eq_append, BitVec.extractLsb'_append_eq_right]

@[simp] theorem ctrlByte_reserved_low : (ctrlByte pwr bri).extractLsb' 1 3 = 0 := by
  rw [ctrlByte_eq_append, BitVec.extractLsb'_append_eq_of_le (by decide)]
  exact BitVec.extractLsb'_append_eq_right

@[simp] theorem ctrlByte_brightness : (ctrlByte pwr bri).extractLsb' 4 3 = bri := by
  rw [ctrlByte_eq_append, BitVec.extractLsb'_append_eq_of_le (by decide), BitVec.extractLsb'_append_eq_of_le (by decide)]
  exact BitVec.extractLsb'_append_eq_right

@[simp] theorem ctrlByte_reserved_high : (ctrlByte pwr bri).extractLsb' 7 1 = 0 := by
  rw [ctrlByte_eq_append, BitVec.extractLsb'_append_eq_of_le (by decide), BitVec.extractLsb'_append_eq_of_le (by decide)]
  exact BitVec.extractLsb'_append_eq_left

end fields

/-- The control bytes, those of each BRI with PWR off and on side by side. -/
def ctrlBytes : List Byte :=
  [0x00, 0x01, 0x10, 0x11, 0x20, 0x21, 0x30, 0x31, 0x40, 0x41, 0x50, 0x51, 0x60, 0x61, 0x70, 0x71]

theorem ctrlByte_mem_ctrlBytes : ∀ (pwr : BitVec 1) (bri : BitVec 3), ctrlByte pwr bri ∈ ctrlBytes := by decide

/-- Each listed byte is the control byte of its own two fields. -/
theorem eq_ctrlByte_of_mem_ctrlBytes :
    ∀ b ∈ ctrlBytes, b = ctrlByte (b.extractLsb' 0 1) (b.extractLsb' 4 3) := by decide

theorem exists_ctrlByte_iff_mem_ctrlBytes (b : Byte) : (∃ pwr bri, b = ctrlByte pwr bri) ↔ b ∈ ctrlBytes := by
  constructor
  · rintro ⟨pwr, bri, rfl⟩
    exact ctrlByte_mem_ctrlBytes pwr bri
  · intro h
    exact ⟨_, _, eq_ctrlByte_of_mem_ctrlBytes b h⟩

/-! ### A slot without an address -/

theorem slotLegal_eq_false_iff {slot : Int} : slotLegal slot = false ↔ slot < 0 ∨ 3 < slot := by
  simp only [slotLegal, Bool.and_eq_false_iff, decide_eq_false_iff_not, not_le]

/-- R202: an illegal slot is answered by the exception, before any transaction. -/
theorem exec_writeDigit_of_illegal {slot : Int} (mask : Word32) (s : State) (h : slotLegal slot = false) :
    exec (.writeDigit slot mask) s = .next (s.raise (.invalidSlot (a32 slot))) := by
  simp [exec, execWriteDigit, writeDigitFrom, h]

section raise
variable (s : State) (e : Exn)

/-- A response is no transaction. -/
@[simp] theorem raise_trace : (s.raise e).trace = s.trace := by
  simp [trace_of_log (s := s) (t := s.raise e) rfl]

@[simp] theorem raise_image : (s.raise e).image = s.image := rfl

end raise

end Sys2Proof.Machine

namespace Sys2Proof

open Machine

/-- Settles O1: the fields read off R44's table, the bytes by listing the two registers. -/
theorem controlByteFields : Obligations.ControlByteFields := by
  constructor
  · intro pwr bri
    exact ⟨rfl, ctrlByte_power pwr bri, ctrlByte_reserved_low pwr bri, ctrlByte_brightness pwr bri,
      ctrlByte_reserved_high pwr bri⟩
  · exact exists_ctrlByte_iff_mem_ctrlBytes

/-- Settles O2: R8 bounds DIGIT_BASE, so the sum stays below 256; an illegal slot only adds a response. -/
theorem digitAddressesDoNotWrap : Obligations.DigitAddressesDoNotWrap := by
  constructor
  · intro cfg slot h
    exact ⟨rfl, digitAddr_toNat cfg h⟩
  · intro slot mask s h
    exact ⟨_, exec_writeDigit_of_illegal mask s (slotLegal_eq_false_iff.2 h), raise_trace s _, raise_image s _⟩

end Sys2Proof
end

section
/-! SUPPORT. The bytes of a command word (30_encoding.md R61). -/

namespace Sys2Proof

/-- The bytes of a word are its fields at every eighth bit. -/
theorem bytesOfWord_eq_map (w : CmdWord) : bytesOfWord w = (List.range 9).map fun k => w.extractLsb' (8 * k) 8 := rfl

theorem bytesOfWord_getElem? (w : CmdWord) {k : Nat} (hk : k ≤ 8) :
    (bytesOfWord w)[k]? = some (w.extractLsb' (8 * k) 8) := by
  rw [bytesOfWord_eq_map, List.getElem?_map, List.getElem?_range (by omega), Option.map_some]

/-- The lowest byte of an append stands at the shift, the bytes above it one byte higher. -/
theorem setWidth_append_byte_shiftLeft {m : Nat} (hi : BitVec m) (b : Byte) (n : Nat) :
    (hi ++ b).setWidth 72 <<< n = b.setWidth 72 <<< n ||| hi.setWidth 72 <<< (n + 8) := by
  ext i h
  simp only [BitVec.getElem_or, BitVec.getElem_shiftLeft, BitVec.getElem_setWidth, BitVec.getLsbD_append]
  by_cases below : i < n
  · simp [below, show i < n + 8 by omega]
  · by_cases inByte : i - n < 8
    · simp [below, inByte, show i < n + 8 by omega]
    · have inHigh : ¬ i < n + 8 := by omega
      have beyond : b.getLsbD (i - n) = false := BitVec.getLsbD_of_ge _ _ (by omega)
      simp [below, inByte, inHigh, beyond, Nat.sub_sub]

/-- A field above the lowest byte is a field of the bytes above it. -/
theorem extractLsb'_append_byte {m : Nat} (hi : BitVec m) (b : Byte) (lo : Nat) :
    (hi ++ b).extractLsb' (lo + 8) 8 = hi.extractLsb' lo 8 := by
  rw [BitVec.extractLsb'_append_eq_of_le (by omega), Nat.add_sub_cancel]

section nineBytes
variable (b0 b1 b2 b3 b4 b5 b6 b7 b8 : Byte)

/-- R61's formula for the word, from the lowest byte up. -/
theorem setWidth_append_bytes :
    (b8 ++ b7 ++ b6 ++ b5 ++ b4 ++ b3 ++ b2 ++ b1 ++ b0).setWidth 72 =
      b0.setWidth 72 ||| (b1.setWidth 72 <<< 8) ||| (b2.setWidth 72 <<< 16) ||| (b3.setWidth 72 <<< 24) |||
        (b4.setWidth 72 <<< 32) ||| (b5.setWidth 72 <<< 40) ||| (b6.setWidth 72 <<< 48) |||
        (b7.setWidth 72 <<< 56) ||| (b8.setWidth 72 <<< 64) := by
  rw [← BitVec.shiftLeft_zero (BitVec.setWidth 72 (_ ++ b0))]
  -- First the appends, while the widths still stand as sums.
  simp only [setWidth_append_byte_shiftLeft]
  simp only [BitVec.shiftLeft_zero, BitVec.or_assoc, Nat.reduceAdd]

theorem extractLsb'_append_bytes :
    ((List.range 9).map fun k => (b8 ++ b7 ++ b6 ++ b5 ++ b4 ++ b3 ++ b2 ++ b1 ++ b0).extractLsb' (8 * k) 8) =
      [b0, b1, b2, b3, b4, b5, b6, b7, b8] := by
  simp only [List.range, List.range.loop, List.map, Nat.reduceMul, extractLsb'_append_byte,
    BitVec.extractLsb'_append_eq_right, BitVec.extractLsb'_eq_self]

end nineBytes

/-- Settles O4: the word is the append of the bytes, read both as R61's formula and as its fields. -/
theorem commandWordIsLittleEndian : Obligations.CommandWordIsLittleEndian := by
  intro b0 b1 b2 b3 b4 b5 b6 b7 b8
  exact ⟨_, rfl, (BitVec.setWidth_eq _).symm.trans (setWidth_append_bytes b0 b1 b2 b3 b4 b5 b6 b7 b8),
    (bytesOfWord_eq_map _).trans (extractLsb'_append_bytes b0 b1 b2 b3 b4 b5 b6 b7 b8),
    fun _ => bytesOfWord_getElem? _⟩

end Sys2Proof
end

section
/-! SUPPORT. The string literal in the operands of each form (30_encoding.md R74). -/

namespace Sys2Proof.Machine

/-! ### What SHOW_TEXT reads from it -/

theorem charCodes_of_ascii {letters : List Char} (h : ∀ c ∈ letters, c.toNat < 128) :
    charCodes letters = some (letters.map fun c => (c.toNat : Int)) := by
  induction letters with
  | nil => rfl
  | cons c cs ih =>
    obtain ⟨hc, hcs⟩ := List.forall_mem_cons.1 h
    have code : charCode c = some (c.toNat : Int) := if_pos hc
    simp only [charCodes, code, ih hcs, List.map_cons]

theorem textOperand_listTokens (items : List Int) : textOperand (listTokens items) = some items :=
  listOperand_listTokens items

theorem assembleTokens_showText (args : List AsmToken) :
    assembleTokens (.name "SHOW_TEXT".toList :: args) = ((textOperand args).bind elementsOperand).map .showText := by
  have opcode : mnemonicOpcode "SHOW_TEXT".toList = 0x07 := opcode_of_mnemonic (n := 6) (by decide)
  simp only [assembleTokens, opcode]

/-! ### The other forms refuse it -/

section refused
variable {letters : List Char} {args : List AsmToken}

theorem listItems_eq_none_of_text (h : .text letters ∈ args) : listItems args = none := by
  induction args using listItems.induct with
  | case1 v => simp at h
  | case2 v rest ih =>
    have inRest : .text letters ∈ rest := by simpa using h
    simp [listItems, ih inRest]
  | case3 args notLast notItem => rw [listItems] <;> assumption

theorem listOperand_eq_none_of_text (h : .text letters ∈ args) : listOperand args = none := by
  unfold listOperand
  split
  · simp at h
  · exact listItems_eq_none_of_text (by simpa using h)
  · rfl

theorem noOperand_eq_none_of_text (i : Instr) (h : .text letters ∈ args) : noOperand i args = none := by
  cases args with
  | nil => simp at h
  | cons => rfl

theorem symbolOperand_eq_none_of_text (h : .text letters ∈ args) : symbolOperand args = none := by
  unfold symbolOperand
  split
  · simp at h
  · rfl

theorem signedOperand_eq_none_of_text (make : Int → Instr) (h : .text letters ∈ args) : signedOperand make args = none := by
  unfold signedOperand
  split
  · simp at h
  · rfl

theorem digitOperands_eq_none_of_text (h : .text letters ∈ args) : digitOperands args = none := by
  unfold digitOperands
  split
  · simp at h
  · rfl

theorem positionOperands_eq_none_of_text (make : Int → Mode → Byte → Instr) (h : .text letters ∈ args) :
    positionOperands make args = none := by
  unfold positionOperands
  split
  · simp at h
  · rfl

/-- SHOW_TEXT takes a string literal only as its whole operand. -/
theorem eq_text_of_textOperand {vs : List Int} (h : .text letters ∈ args) (taken : textOperand args = some vs) :
    args = [.text letters] := by
  unfold textOperand at taken
  split at taken
  · simpa [eq_comm] using h
  · rw [listOperand_eq_none_of_text h] at taken
    cases taken

/-- A line with a string literal is SHOW_TEXT and the literal alone. -/
theorem eq_showText_of_text {m : List Char} {i : Instr} (h : .text letters ∈ args)
    (taken : assembleTokens (.name m :: args) = some i) : m = "SHOW_TEXT".toList ∧ args = [.text letters] := by
  have opcode : mnemonicOpcode m = 0x07 := by
    by_contra other
    have refused : assembleTokens (.name m :: args) = none := by
      simp only [assembleTokens]
      split
      · exact symbolOperand_eq_none_of_text h
      · exact signedOperand_eq_none_of_text _ h
      · exact noOperand_eq_none_of_text _ h
      · exact noOperand_eq_none_of_text _ h
      · exact noOperand_eq_none_of_text _ h
      · exact digitOperands_eq_none_of_text h
      · contradiction
      · rw [listOperand_eq_none_of_text h]
        rfl
      · exact signedOperand_eq_none_of_text _ h
      · exact signedOperand_eq_none_of_text _ h
      · exact positionOperands_eq_none_of_text _ h
      · exact positionOperands_eq_none_of_text _ h
      · rfl
    rw [refused] at taken
    cases taken
  have name : m = "SHOW_TEXT".toList := mnemonic_of_opcode (n := 6) opcode (by decide)
  subst name
  rw [assembleTokens_showText] at taken
  obtain ⟨elems, read, -⟩ := Option.map_eq_some_iff.1 taken
  obtain ⟨vs, operand, -⟩ := Option.bind_eq_some_iff.1 read
  exact ⟨rfl, eq_text_of_textOperand h operand⟩

end refused

end Sys2Proof.Machine

namespace Sys2Proof

open Machine

/-- Settles O11: both operands are read as the same codes, and every other reader of operands refuses a literal. -/
theorem textLiteralIsItsCodes : Obligations.TextLiteralIsItsCodes := by
  refine ⟨fun letters ascii => ?_, ?_, fun m before after letters i taken => ?_⟩
  · have literal : textOperand [.text letters] = some (letters.map fun c => (c.toNat : Int)) := charCodes_of_ascii ascii
    rw [assembleTokens_showText, assembleTokens_showText, literal, textOperand_listTokens]
  · rw [assembleTokens_showText]
    rfl
  · obtain ⟨name, alone⟩ := eq_showText_of_text (letters := letters) (by simp) taken
    obtain ⟨hb, ha⟩ | ⟨-, ha⟩ := List.append_eq_singleton_iff.1 alone
    · exact ⟨name, hb, by simpa using ha⟩
    · cases ha

end Sys2Proof
end

section
/-! SUPPORT. The segment codec: Seg, the answer of LOOKUP, and the transactions of SHOW_TEXT (40_segment_codec.md). -/

namespace Sys2Proof.Machine

/-! ### Seg and LOOKUP (40_segment_codec.md R101, R102) -/

theorem seg_of_known {cfg : Config} {sym mask : Byte} (h : tableLookup cfg.segTable sym = some mask) :
    seg cfg sym = mask := by
  rw [seg, h, Option.getD_some]

theorem seg_of_unknown {cfg : Config} {sym : Byte} (h : tableLookup cfg.segTable sym = none) : seg cfg sym = 0x00 := by
  rw [seg, h, Option.getD_none]

theorem exec_lookup (sym : Byte) (s : State) :
    exec (.lookup sym) s = .next (s.respond .ok ((seg s.cfg sym).setWidth 32)) := rfl

/-- LOOKUP gives one response, with Seg in VALUE[7:0]. -/
theorem exec_lookup_responds_seg (sym : Byte) (s : State) :
    ∃ u r, exec (.lookup sym) s = .next u ∧ u.responses = s.responses ++ [r] ∧
      (responseValue r).extractLsb' 0 8 = seg s.cfg sym := by
  refine ⟨_, _, exec_lookup sym s, responses_of_log (respond_log ..), ?_⟩
  rw [responseValue_responseWord, BitVec.extractLsb'_setWidth_of_le (by decide), BitVec.extractLsb'_eq_self]

/-! ### The transactions a sequence adds to the trace -/

/-- However the sequence ends, new trace entry `i` is listed transaction `i` with some result. -/
theorem TransactEnd.new_entry_listed {cmd : Instr} {k i : Nat} {ws : List Write} {s t : State} {x : Transaction}
    (h : TransactEnd cmd k ws s t) (entry : t.trace[s.trace.length + i]? = some x) :
    ∃ w, ws[i]? = some w ∧ x.addr = w.addr ∧ x.data = w.data := by
  obtain ⟨ts, trace, later, listed⟩ := h.trace_adds
  rw [trace, List.getElem?_append_right (Nat.le_add_right ..), Nat.add_sub_cancel_left] at entry
  obtain ⟨inside, -⟩ := List.getElem?_eq_some_iff.1 entry
  have pair : (ws.map fun w => (w.addr, w.data))[i]? = some (x.addr, x.data) := by
    rw [← listed, List.getElem?_append_left (by rwa [List.length_map]), List.getElem?_map, entry, Option.map_some]
  rw [List.getElem?_map] at pair
  obtain ⟨w, at_i, same⟩ := Option.map_eq_some_iff.1 pair
  obtain ⟨addr, data⟩ := Prod.mk.inj same
  exact ⟨w, at_i, addr.symm, data.symm⟩

/-- A sequence that completes adds its transactions, each with result ok. -/
theorem okWrites_respond_trace (s : State) (ws : List Write) (st : Status) (v : Word32) :
    ((okWrites s ws).respond st v).trace = s.trace ++ ws.map fun w => ⟨w.addr, w.data, .ok⟩ := by
  rw [trace_of_log (respond_log ..), trace_of_log (okWrites_log ..), transactions_of_events]
  simp

/-! ### The transactions of SHOW_TEXT (41_display_controller.md R127) -/

theorem slotWrites_getElem? (cfg : Config) (m : Masks) {i : Nat} (h : i < 4) :
    (slotWrites cfg m)[i]? = some ⟨digitAddr cfg i, m.get i, i⟩ := by
  match i, h with
  | 0, _ | 1, _ | 2, _ | 3, _ => rfl

theorem Masks.get_ofSlots (f : Nat → Byte) {i : Nat} (h : i < 4) : (Masks.ofSlots f).get i = f i := by
  match i, h with
  | 0, _ | 1, _ | 2, _ | 3, _ => rfl

theorem elementMasks_get_of_present (f : Byte → Byte) {e : Elements} {i : Nat} (h : i < min e.len.toNat 4) :
    (elementMasks f e).get i = f (elementByte e i) := by
  have present : elementPresent e i = true := decide_eq_true h
  rw [elementMasks, Masks.get_ofSlots _ (by omega), if_pos present]

/-- The one SHOW_TEXT lists for a present element sends Seg of its symbol to its slot. -/
theorem listedWrites_showText_getElem? (s : State) {e : Elements} {i : Nat} (h : i < min e.len.toNat 4) :
    (listedWrites (.showText e) s)[i]? = some ⟨digitAddr s.cfg i, seg s.cfg (elementByte e i), i⟩ := by
  rw [listedWrites, slotWrites_getElem? _ _ (by omega), elementMasks_get_of_present _ h]

theorem showTextFrom_eq_transact (k : Nat) (e : Elements) (s : State) :
    showTextFrom k e s = .next (transact (.showText e) k ((listedWrites (.showText e) s).drop k) s) := rfl

/-- R103 from whichever transaction SHOW_TEXT goes on: a new trace entry of a present element has its slot and the
byte LOOKUP answers for its symbol. -/
theorem showTextFrom_entry_eq_lookup {k i : Nat} {e : Elements} {s t : State} {x : Transaction}
    (run : showTextFrom k e s = .next t) (present : k + i < min e.len.toNat 4)
    (entry : t.trace[s.trace.length + i]? = some x) :
    ∃ u r, exec (.lookup (elementByte e (k + i))) s = .next u ∧ u.responses = s.responses ++ [r] ∧
      x.addr = digitAddr s.cfg (k + i) ∧ x.data = (responseValue r).extractLsb' 0 8 := by
  rw [showTextFrom_eq_transact] at run
  cases run
  obtain ⟨w, listed, addr, data⟩ := (transact_cases ..).new_entry_listed entry
  rw [List.getElem?_drop, listedWrites_showText_getElem? _ present] at listed
  cases listed
  obtain ⟨u, r, looked, responses, value⟩ := exec_lookup_responds_seg (elementByte e (k + i)) s
  exact ⟨u, r, looked, responses, addr, data.trans value.symm⟩

/-- With every transaction ok and no reset, each present element has its entry. -/
theorem exec_showText_entry {i : Nat} {e : Elements} {s : State} {rest : List BusResult}
    (present : i < min e.len.toNat 4) (answers : s.answers = .ok :: .ok :: .ok :: .ok :: rest)
    (noReset : noResetWithin 4 s.resets = true) :
    ∃ t, exec (.showText e) s = .next t ∧
      t.trace[s.trace.length + i]? = some ⟨digitAddr s.cfg i, seg s.cfg (elementByte e i), .ok⟩ := by
  refine ⟨(okWrites s (listedWrites (.showText e) s)).respond .ok 0, ?_, ?_⟩
  · exact congrArg Host.Outcome.next (transact_all_ok _ 0 (listedWrites (.showText e) s) s rest answers noReset)
  · rw [okWrites_respond_trace, List.getElem?_append_right (Nat.le_add_right ..), Nat.add_sub_cancel_left,
      List.getElem?_map, listedWrites_showText_getElem? _ present, Option.map_some]

end Sys2Proof.Machine

namespace Sys2Proof

open Machine

/-- Settles O23: SHOW_TEXT sends Seg of each present symbol, from its start, after waiting and in a complete run, and
Seg is what LOOKUP answers. -/
theorem textMaskIsLookupMask : Obligations.TextMaskIsLookupMask := by
  refine ⟨fun e s t i x run present entry => ?_, fun e k s t i x phase run present entry => ?_,
    fun e s rest i present answers noReset => ?_⟩
  · have fromStart : 0 + i < min e.len.toNat 4 := by rwa [Nat.zero_add]
    simpa only [Nat.zero_add] using showTextFrom_entry_eq_lookup run fromStart entry
  · have goesOn : showTextFrom (k - 1) e s = .next t := by
      rw [step, phase] at run
      exact run
    exact showTextFrom_entry_eq_lookup goesOn present entry
  · obtain ⟨t, run, entry⟩ := exec_showText_entry present answers noReset
    obtain ⟨u, r, looked, responses, value⟩ := exec_lookup_responds_seg (elementByte e i) s
    exact ⟨t, u, r, run, looked, responses, by rw [entry, value]⟩

/-- Settles O13: Seg by whether the table knows the symbol, and LOOKUP only responds. -/
theorem lookupAnswersSegMask : Obligations.LookupAnswersSegMask :=
  ⟨fun _ _ _ => seg_of_known, fun _ _ => seg_of_unknown, exec_lookup⟩

end Sys2Proof
end

section
/-! SUPPORT. The control bytes a command issues (41_display_controller.md R132). -/

namespace Sys2Proof.Machine

@[simp] theorem ctrlByte_and_reserved : ∀ (pwr : BitVec 1) (bri : BitVec 3), ctrlByte pwr bri &&& 0x8E#8 = 0 := by decide

@[simp] theorem respond_trace (s : State) (st : Status) (v : Word32) : (s.respond st v).trace = s.trace := by
  simp [trace_of_log (s := s) (t := s.respond st v) rfl]

@[simp] theorem registerWrite_trace (i : Instr) (s : State) : (registerWrite i s).trace = s.trace := by
  rw [State.trace, registerWrite_log, State.trace]

/-- However the sequence ends, what it adds to the trace is listed. -/
theorem TransactEnd.new_mem_listed {cmd : Instr} {k : Nat} {ws : List Write} {s t : State} {x : Transaction}
    (h : TransactEnd cmd k ws s t) (new : x ∈ t.trace.drop s.trace.length) :
    ∃ w ∈ ws, x.addr = w.addr ∧ x.data = w.data := by
  obtain ⟨i, entry⟩ := List.mem_iff_getElem?.1 new
  rw [List.getElem?_drop] at entry
  obtain ⟨w, at_i, same⟩ := h.new_entry_listed entry
  exact ⟨w, List.mem_of_getElem? at_i, same⟩

/-- No digit has the control register's address, so a listed transaction there is WriteControl's. -/
theorem eq_controlWrite_of_mem_listedWrites {i : Instr} {s : State} {w : Write} (listed : w ∈ listedWrites i s)
    (ctrl : w.addr = s.cfg.ctrlAddr) : w = controlWrite s := by
  obtain control | ⟨slot, legal, digit⟩ := mem_listedWrites listed
  · exact control
  · exact absurd (digit.symm.trans ctrl) (digitAddr_ne_ctrlAddr s.cfg legal)

/-- From whichever of its transactions a command runs, it sends the control register the byte of PWR and BRI. -/
theorem transact_listed_control_byte {cmd : Instr} {k n : Nat} {s : State} {x : Transaction}
    (new : x ∈ (transact cmd k ((listedWrites cmd s).drop n) s).trace.drop s.trace.length)
    (ctrl : x.addr = s.cfg.ctrlAddr) : x.data = ctrlByte s.pwr s.bri := by
  obtain ⟨w, left, addr, data⟩ := (transact_cases ..).new_mem_listed new
  have control : w = controlWrite s :=
    eq_controlWrite_of_mem_listedWrites (List.mem_of_mem_drop left) (addr.symm.trans ctrl)
  rw [data, control, controlWrite]

/-- R132 for a command from its start: the registers are those after its register write. -/
theorem exec_control_byte {i : Instr} {s t : State} {x : Transaction} (run : exec i s = .next t)
    (new : x ∈ t.trace.drop s.trace.length) (ctrl : x.addr = s.cfg.ctrlAddr) :
    x.data = ctrlByte (registerWrite i s).pwr (registerWrite i s).bri := by
  obtain ⟨st, v, -, -, answers⟩ | ⟨-, transacts⟩ := exec_cases i s
  · cases run.symm.trans answers
    simp at new
  · cases run.symm.trans transacts
    exact transact_listed_control_byte (n := 0) (by simpa using new) (by simpa using ctrl)

/-- R132 for a command that goes on after waiting: its register is written already. -/
theorem continueFrom_control_byte {cmd : Instr} {k : Nat} {s t : State} {x : Transaction}
    (run : continueFrom cmd k s = .next t) (new : x ∈ t.trace.drop s.trace.length) (ctrl : x.addr = s.cfg.ctrlAddr) :
    x.data = ctrlByte s.pwr s.bri := by
  obtain ⟨st, v, -, -, answers⟩ | ⟨-, transacts⟩ := continueFrom_cases cmd k s
  · cases run.symm.trans answers
    simp at new
  · cases run.symm.trans transacts
    exact transact_listed_control_byte new ctrl

theorem step_executing {cmd : Instr} {k : Nat} {s : State} (phase : s.phase = .executing cmd k) :
    step s = continueFrom cmd (k - 1) s := by
  rw [step, phase]
  rfl

end Sys2Proof.Machine

namespace Sys2Proof

open Machine

/-- Settles O38: only WriteControl's transaction goes to CTRL_ADDR, from the start and after waiting, and no control
byte has a reserved bit. -/
theorem controlBytesComeFromRegisters : Obligations.ControlBytesComeFromRegisters := by
  constructor
  · intro i s t x run new ctrl
    have byte := exec_control_byte run new ctrl
    exact ⟨byte, by rw [byte, ctrlByte_and_reserved]⟩
  · intro cmd k s t x phase run new ctrl
    have byte := continueFrom_control_byte ((step_executing phase).symm.trans run) new ctrl
    exact ⟨byte, by rw [byte, ctrlByte_and_reserved]⟩

end Sys2Proof
end

section
/-! SUPPORT. The scale converter: masks of a count, and a position reduced to a count (42_scale_renderer.md). -/

namespace Sys2Proof.Machine

/-! ### Clamp (00_scope.md R11) -/

theorem clamp_eq_max_min {lo hi : Int} (v : Int) (h : lo ≤ hi) : clamp v lo hi = max lo (min v hi) := by
  unfold clamp
  split_ifs <;> omega

/-! ### The masks of a count (R161, R162) -/

/-- R162's `lit`: how many bits of slot `s` a count lights. -/
def litBits (count s : Nat) : Nat := (clamp ((count : Int) - 8 * (3 - s)) 0 8).toNat

theorem litBits_eq_max_min (count s : Nat) : litBits count s = (max 0 (min ((count : Int) - 8 * (3 - s)) 8)).toNat := by
  rw [litBits, clamp_eq_max_min _ (by decide)]

/-- R161's mask of the slot where the bar ends: ones below the remainder. -/
theorem one_shiftLeft_sub_one_toNat : ∀ n < 8, (((1#8) <<< n) - 1#8).toNat = 2 ^ n - 1 := by decide

/-- R161's three branches are the slots with all, some and no bits lit. -/
theorem scaleMask_toNat {count s : Nat} (hcount : count ≤ 31) (hs : s ≤ 3) :
    (scaleMask count s).toNat = 2 ^ litBits count s - 1 := by
  dsimp only [scaleMask]
  split_ifs with isFull isLast
  · have lit : litBits count s = 8 := by rw [litBits_eq_max_min]; omega
    rw [lit]
    rfl
  · have lit : litBits count s = count % 8 := by rw [litBits_eq_max_min]; omega
    rw [lit]
    exact one_shiftLeft_sub_one_toNat _ (Nat.mod_lt _ (by decide))
  · have lit : litBits count s = 0 := by rw [litBits_eq_max_min]; omega
    rw [lit]
    rfl

theorem scaleMasks_get {s : Nat} (count : Nat) (hs : s ≤ 3) : (scaleMasks count).get s = scaleMask count s :=
  Masks.get_ofSlots _ (by omega)

/-! ### The LEDs of a count (R163) -/

/-- The LED that bit `i` of slot `s` drives. -/
def ledOf (s i : Nat) : Nat := 8 * (3 - s) + i

theorem lt_litBits_iff {count s i : Nat} (hs : s ≤ 3) (hi : i < 8) : i < litBits count s ↔ ledOf s i < count := by
  rw [litBits_eq_max_min, ledOf]
  omega

/-- A bit of a slot's mask is lit exactly when its LED is below the count. -/
theorem scaleMasks_get_getLsbD {count s i : Nat} (hcount : count ≤ 31) (hs : s ≤ 3) (hi : i < 8) :
    ((scaleMasks count).get s).getLsbD i = decide (ledOf s i < count) := by
  rw [scaleMasks_get count hs, ← BitVec.testBit_toNat, scaleMask_toNat hcount hs, Nat.testBit_two_pow_sub_one]
  exact decide_eq_decide.2 (lt_litBits_iff hs hi)

/-- R164's formula is the append of the four masks, slot 3 the highest. -/
theorem Masks.pack_eq_append (m : Masks) : m.pack = m.m3 ++ m.m2 ++ m.m1 ++ m.m0 := by
  have shifts : (m.m3 ++ m.m2 ++ m.m1 ++ m.m0).setWidth 32 =
      m.m3.setWidth 32 <<< 24 ||| m.m2.setWidth 32 <<< 16 ||| m.m1.setWidth 32 <<< 8 ||| m.m0.setWidth 32 :=
    BitVec.setWidth_append_append_append_eq_shiftLeft_setWidth_or
  rw [BitVec.setWidth_eq, BitVec.or_comm, BitVec.or_comm _ (m.m1.setWidth 32 <<< 8),
    BitVec.or_comm (m.m3.setWidth 32 <<< 24), ← BitVec.or_assoc, ← BitVec.or_assoc] at shifts
  exact shifts.symm

theorem Masks.pack_extractLsb' (m : Masks) {s : Nat} (hs : s ≤ 3) : m.pack.extractLsb' (8 * s) 8 = m.get s := by
  rw [Masks.pack_eq_append]
  match s, hs with
  | 0, _ | 1, _ | 2, _ | 3, _ =>
    simp only [Nat.reduceMul, Masks.get, extractLsb'_append_byte, BitVec.extractLsb'_append_eq_right,
      BitVec.extractLsb'_eq_self]

theorem Masks.pack_getLsbD (m : Masks) {k : Nat} (hk : k < 32) :
    m.pack.getLsbD k = (m.get (k / 8)).getLsbD (k % 8) := by
  rw [← m.pack_extractLsb' (s := k / 8) (by omega), BitVec.getLsbD_extractLsb', Nat.div_add_mod,
    decide_eq_true (Nat.mod_lt k (by decide)), Bool.true_and]

theorem countP_lt_range {c n : Nat} (h : c ≤ n) : (List.range n).countP (fun k => decide (k < c)) = c := by
  obtain ⟨m, rfl⟩ := Nat.exists_eq_add_of_le h
  have below : (List.range c).countP (fun k => decide (k < c)) = (List.range c).length :=
    List.countP_eq_length.2 fun k hk => decide_eq_true (List.mem_range.1 hk)
  have above : ((List.range m).map (c + ·)).countP (fun k => decide (k < c)) = 0 :=
    List.countP_eq_zero.2 (by simp)
  rw [List.range_add, List.countP_append, below, above, List.length_range, Nat.add_zero]

/-- The bits of the packed word drive each LED once: the slots stand in reverse. -/
theorem ledOf_perm_range : ((List.range 32).map fun k => ledOf (k / 8) (k % 8)).Perm (List.range 32) := by decide

theorem scaleMasks_pack_countP {count : Nat} (hcount : count ≤ 31) :
    (List.range 32).countP (fun k => (scaleMasks count).pack.getLsbD k) = count := by
  have bit : ∀ k < 32, (scaleMasks count).pack.getLsbD k = decide (ledOf (k / 8) (k % 8) < count) := fun k hk => by
    rw [Masks.pack_getLsbD _ hk, scaleMasks_get_getLsbD hcount (by omega) (by omega)]
  calc (List.range 32).countP (fun k => (scaleMasks count).pack.getLsbD k)
    _ = (List.range 32).countP (fun k => decide (ledOf (k / 8) (k % 8) < count)) :=
      List.countP_congr fun k hk => by rw [bit k (List.mem_range.1 hk)]
    _ = ((List.range 32).map fun k => ledOf (k / 8) (k % 8)).countP (fun led => decide (led < count)) :=
      by rw [List.countP_map]; rfl
    _ = (List.range 32).countP (fun led => decide (led < count)) := ledOf_perm_range.countP_eq _
    _ = count := countP_lt_range (by omega)

/-! ### The count of a position (R170, R171, R176) -/

theorem reducePos_wrap (raw : Int) (cap : Byte) : reducePos raw .wrap cap = raw % cap.toNat := rfl

theorem reducePos_bounded (raw : Int) (cap : Byte) : reducePos raw .bounded cap = clamp raw 1 (cap.toNat - 1) := rfl

theorem tmod_emod_self (a b : Int) : a.tmod b % b = a % b := by
  rw [Int.tmod_def, Int.sub_mul_emod_self_left]

/-- R171 with a remainder that truncates: the sum is positive, and the capacity leaves its residue as it is. -/
theorem tmod_add_tmod_eq_emod (a : Int) {b : Int} (hb : 0 < b) : (a.tmod b + b).tmod b = a % b := by
  have sum_nonneg : 0 ≤ a.tmod b + b := by linarith [Int.lt_tmod_of_pos a hb]
  rw [Int.tmod_eq_emod_of_nonneg sum_nonneg, Int.add_emod_right, tmod_emod_self]

/-- R171 with a remainder that floors. -/
theorem fmod_add_fmod_eq_emod (a : Int) {b : Int} (hb : 0 < b) : (a.fmod b + b).fmod b = a % b := by
  rw [Int.fmod_eq_emod_of_nonneg _ hb.le, Int.fmod_eq_emod_of_nonneg _ hb.le, Int.add_emod_right, Int.emod_emod]

theorem reducePos_mem_range (raw : Int) (mode : Mode) {cap : Byte} (hcap : 2 ≤ cap.toNat) :
    0 ≤ reducePos raw mode cap ∧ reducePos raw mode cap < cap.toNat := by
  cases mode with
  | wrap =>
    rw [reducePos_wrap]
    exact ⟨Int.emod_nonneg _ (by omega), Int.emod_lt_of_pos _ (by omega)⟩
  | bounded =>
    rw [reducePos_bounded, clamp_eq_max_min _ (by omega)]
    omega

end Sys2Proof.Machine

namespace Sys2Proof

open Machine

/-- Settles O29: either remainder of the sum is the Euclidean remainder of the position. -/
theorem wrapFormulaUnderAnyRemainder : Obligations.WrapFormulaUnderAnyRemainder := by
  intro raw cap atLeast _
  have pos : (0 : Int) < cap.toNat := by omega
  exact ⟨⟨Int.lt_tmod_of_pos raw pos, Int.tmod_lt_of_pos raw pos⟩, tmod_add_tmod_eq_emod raw pos,
    ⟨Int.fmod_nonneg_of_pos raw pos, Int.fmod_lt_of_pos raw pos⟩, fmod_add_fmod_eq_emod raw pos⟩

/-- Settles O24: R161's branches, slot by slot, against R162's `lit`. -/
theorem scaleMaskClosedForm : Obligations.ScaleMaskClosedForm := by
  intro count s hcount hs
  rw [scaleMasks_get count hs]
  exact scaleMask_toNat hcount hs

/-- Settles O26: LED k is the bit that `ledOf` numbers k, and the packed bits are counted by their LEDs. -/
theorem countLightsLowLeds : Obligations.CountLightsLowLeds := by
  intro count hcount
  refine ⟨fun k hk => ?_, scaleMasks_pack_countP hcount⟩
  have led : ledOf (3 - k / 8) (k % 8) = k := by
    rw [ledOf]
    omega
  rw [scaleMasks_get_getLsbD hcount (by omega) (by omega), led]

/-- Settles O30: the remainder in Wrap mode, the clamp in Bounded mode, both below a capacity of at most 32. -/
theorem reducedCountInRange : Obligations.ReducedCountInRange := by
  intro raw mode cap atLeast atMost
  obtain ⟨nonneg, below⟩ := reducePos_mem_range raw mode atLeast
  omega

end Sys2Proof
end

section
/-! SUPPORT. The exceptions a command's operands raise, and the image a failed transaction leaves (60_exceptions.md R202,
R203, R213). -/

namespace Sys2Proof.Machine

/-! ### The responses after each shared update -/

@[simp] theorem respond_responses (s : State) (st : Status) (v : Word32) :
    (s.respond st v).responses = s.responses ++ [responseWord st v] :=
  responses_of_log (respond_log ..)

@[simp] theorem busWrite_responses (s : State) (w : Write) (r : BusResult) : (s.busWrite w r).responses = s.responses := by
  simp [responses_of_log (busWrite_log s w r), Write.event]

@[simp] theorem passBoundary_responses (s : State) : s.passBoundary.responses = s.responses := rfl

@[simp] theorem takeReset_responses (s : State) : s.takeReset.responses = s.responses := by
  simp [responses_of_log (takeReset_log s)]

@[simp] theorem okWrites_responses (s : State) (ws : List Write) : (okWrites s ws).responses = s.responses := by
  rw [responses_of_log (okWrites_log ..), responses_of_events, List.append_nil]

@[simp] theorem registerWrite_responses (i : Instr) (s : State) : (registerWrite i s).responses = s.responses := by
  rw [State.responses, registerWrite_log, State.responses]

/-! ### The exception of the operands (60_exceptions.md R202, R203) -/

theorem countLegal_eq_false_iff {count : Int} : countLegal count = false ↔ count < 0 ∨ 31 < count := by
  simp only [countLegal, Bool.and_eq_false_iff, decide_eq_false_iff_not, not_le]

theorem capLegal_eq_false_iff {cap : Byte} : capLegal cap = false ↔ cap.toNat < 2 ∨ 32 < cap.toNat := by
  simp only [capLegal, Bool.and_eq_false_iff, decide_eq_false_iff_not, not_le]

/-- The exception a command raises for its operands, before any transaction. -/
def operandExn : Instr → Option Exn
  | .lookup _ => none
  | .setBrightness _ => none
  | .powerOn => none
  | .powerOff => none
  | .clear => none
  | .writeDigit slot _ => if slotLegal slot then none else some (.invalidSlot (a32 slot))
  | .showText _ => none
  | .showSegments _ => none
  | .scale count => if countLegal count then none else some (.outOfRange (a32 count))
  | .render count => if countLegal count then none else some (.outOfRange (a32 count))
  | .reduce _ _ cap => if capLegal cap then none else some (.outOfRange (cap.setWidth 32))
  | .renderPos _ _ cap => if capLegal cap then none else some (.outOfRange (cap.setWidth 32))

/-- EVERY MEANING BY ITS OPERANDS: the exception they raise, or an answer OK at once, or the listed transactions. -/
theorem exec_cases_operandExn (i : Instr) (s : State) :
    (∃ e, operandExn i = some e ∧ exec i s = .next (s.raise e)) ∨
      operandExn i = none ∧ ((∃ v, exec i s = .next (s.respond .ok v)) ∨
        exec i s = .next (transact i 0 (listedWrites i (registerWrite i s)) (registerWrite i s))) := by
  cases i with
  | lookup sym => exact .inr ⟨rfl, .inl ⟨_, rfl⟩⟩
  | setBrightness val => exact .inr ⟨rfl, .inr rfl⟩
  | powerOn => exact .inr ⟨rfl, .inr rfl⟩
  | powerOff => exact .inr ⟨rfl, .inr rfl⟩
  | clear => exact .inr ⟨rfl, .inr rfl⟩
  | writeDigit slot mask =>
    simp only [operandExn, exec, execWriteDigit, writeDigitFrom, listedWrites, registerWrite]
    cases slotLegal slot with
    | true => exact .inr ⟨rfl, .inr rfl⟩
    | false => exact .inl ⟨_, rfl, rfl⟩
  | showText t => exact .inr ⟨rfl, .inr rfl⟩
  | showSegments t => exact .inr ⟨rfl, .inr rfl⟩
  | scale count =>
    simp only [operandExn, exec, execScale]
    cases countLegal count with
    | true => exact .inr ⟨rfl, .inl ⟨_, rfl⟩⟩
    | false => exact .inl ⟨_, rfl, rfl⟩
  | render count =>
    simp only [operandExn, exec, execRender, renderFrom, listedWrites, registerWrite]
    cases countLegal count with
    | true => exact .inr ⟨rfl, .inr rfl⟩
    | false => exact .inl ⟨_, rfl, rfl⟩
  | reduce raw mode cap =>
    simp only [operandExn, exec, execReduce]
    cases capLegal cap with
    | true => exact .inr ⟨rfl, .inl ⟨_, rfl⟩⟩
    | false => exact .inl ⟨_, rfl, rfl⟩
  | renderPos raw mode cap =>
    simp only [operandExn, exec, execRenderPos, renderPosFrom, listedWrites, registerWrite]
    cases capLegal cap with
    | true => exact .inr ⟨rfl, .inr rfl⟩
    | false => exact .inl ⟨_, rfl, rfl⟩

/-- R202, R203: the exception of the operands is the whole effect. -/
theorem exec_of_operandExn {i : Instr} {e : Exn} (s : State) (raised : operandExn i = some e) :
    exec i s = .next (s.raise e) := by
  obtain ⟨e', raised', run⟩ | ⟨legal, -⟩ := exec_cases_operandExn i s
  · rw [run, Option.some.inj (raised.symm.trans raised')]
  · cases raised.symm.trans legal

/-- R203: OutOfRange with its info is all that an operand out of range does. -/
theorem exec_of_operandExn_outOfRange {i : Instr} {info : Word32} (s : State)
    (raised : operandExn i = some (.outOfRange info)) :
    exec i s = .next { s with log := s.log ++ [.response (responseWord .outOfRange info)], phase := .idle } :=
  (exec_of_operandExn s raised).trans rfl

/-- Which operands raise which exception. -/
theorem operandExn_eq_some {i : Instr} {e : Exn} (raised : operandExn i = some e) :
    (∃ slot mask, i = .writeDigit slot mask ∧ slotLegal slot = false ∧ e = .invalidSlot (a32 slot)) ∨
      (∃ count, (i = .scale count ∨ i = .render count) ∧ countLegal count = false ∧ e = .outOfRange (a32 count)) ∨
      ∃ raw mode cap, (i = .reduce raw mode cap ∨ i = .renderPos raw mode cap) ∧ capLegal cap = false ∧
        e = .outOfRange (cap.setWidth 32) := by
  have illegal : ∀ {legal : Bool} {x : Exn}, (if legal then none else some x) = some e → legal = false ∧ e = x := by
    intro legal x h
    cases legal <;> simp_all
  cases i with
  | writeDigit slot mask => exact .inl ⟨slot, mask, rfl, illegal raised⟩
  | scale count => exact .inr (.inl ⟨count, .inl rfl, illegal raised⟩)
  | render count => exact .inr (.inl ⟨count, .inr rfl, illegal raised⟩)
  | reduce raw mode cap => exact .inr (.inr ⟨raw, mode, cap, .inl rfl, illegal raised⟩)
  | renderPos raw mode cap => exact .inr (.inr ⟨raw, mode, cap, .inr rfl, illegal raised⟩)
  | lookup | setBrightness | powerOn | powerOff | clear | showText | showSegments => cases raised

/-! ### The status of a response -/

theorem Status.code_injective : Function.Injective Status.code := by
  intro a b h
  cases a <;> cases b <;> cases h <;> rfl

/-- A transaction sequence answers with OK or BusWriteFailure only. -/
theorem TransactEnd.new_response_status {cmd : Instr} {k : Nat} {ws : List Write} {s t : State} {r : Response}
    (h : TransactEnd cmd k ws s t) (new : t.responses = s.responses ++ [r]) :
    responseStatus r = Status.ok.code ∨ responseStatus r = Status.busWriteFailure.code := by
  cases h with
  | done rest hok hreset ht =>
    subst ht
    obtain rfl : responseWord .ok 0 = r := by simpa using new
    exact .inl (responseStatus_responseWord ..)
  | waits before after w hws hok hreset ht =>
    subst ht
    change (okWrites s before).responses = _ at new
    simp at new
  | cut before after w r' rest resets hws hok hreset ht =>
    subst ht
    simp at new
  | failed before after w rest hws hok hreset ht =>
    subst ht
    obtain rfl : responseWord .busWriteFailure (Exn.busWriteFailure w.addr w.index).info = r := by
      simpa [raise_eq_respond, Exn.status] using new
    exact .inr (responseStatus_responseWord ..)

/-- A command that answers anything but OK and BusWriteFailure answers the exception of its operands. -/
theorem operandExn_of_new_response {i : Instr} {s t : State} {r : Response} {st : Status} (run : exec i s = .next t)
    (new : t.responses = s.responses ++ [r]) (status : responseStatus r = st.code) (notOk : st ≠ .ok)
    (notBus : st ≠ .busWriteFailure) : ∃ e, operandExn i = some e ∧ e.status = st := by
  obtain ⟨e, raised, raises⟩ | ⟨-, ⟨v, responds⟩ | transacts⟩ := exec_cases_operandExn i s
  · cases run.symm.trans raises
    obtain rfl : responseWord e.status e.info = r := by simpa [raise_eq_respond] using new
    rw [responseStatus_responseWord] at status
    exact ⟨e, raised, Status.code_injective status⟩
  · cases run.symm.trans responds
    obtain rfl : responseWord .ok v = r := by simpa using new
    rw [responseStatus_responseWord] at status
    exact absurd (Status.code_injective status).symm notOk
  · cases run.symm.trans transacts
    obtain ok | bus := (transact_cases ..).new_response_status (new.trans (by rw [registerWrite_responses]))
    · exact absurd (Status.code_injective (status.symm.trans ok)) notOk
    · exact absurd (Status.code_injective (status.symm.trans bus)) notBus

/-! ### The transactions of the four slots (41_display_controller.md R121) -/

/-- The transaction of WriteSlots to slot `k`. -/
def slotWrite (cfg : Config) (m : Masks) (k : Nat) : Write := ⟨digitAddr cfg k, m.get k, k⟩

theorem slotWrites_eq_map (cfg : Config) (m : Masks) : slotWrites cfg m = (List.range 4).map (slotWrite cfg m) := rfl

/-- The transactions before slot `j`, the one to it, and the others. -/
theorem slotWrites_split (cfg : Config) (m : Masks) {j : Nat} (h : j ≤ 3) :
    slotWrites cfg m = (List.range j).map (slotWrite cfg m) ++ slotWrite cfg m j :: (slotWrites cfg m).drop (j + 1) := by
  match j, h with
  | 0, _ | 1, _ | 2, _ | 3, _ => rfl

/-- R202: the transactions of a four-slot command go to slots 0..3. -/
theorem exec_fourSlot_new_addr {i : Instr} {s t : State} {m : Masks} {x : Transaction} (run : exec i s = .next t)
    (masks : fourSlotMasks s.cfg i = some m) (new : x ∈ t.trace.drop s.trace.length) :
    ∃ k, k ≤ 3 ∧ x.addr = digitAddr s.cfg k := by
  cases run.symm.trans (exec_fourSlot masks)
  obtain ⟨w, listed, addr, -⟩ := (transact_cases ..).new_mem_listed new
  rw [slotWrites_eq_map] at listed
  obtain ⟨k, inRange, rfl⟩ := List.mem_map.1 listed
  exact ⟨k, Nat.le_of_lt_succ (List.mem_range.1 inRange), addr⟩

/-! ### The image after transactions (10_state.md R27, 20_memory.md R48) -/

section image
variable {s : State} {w : Write} {ws : List Write} {a : Byte}

/-- A transaction leaves every other address, whatever its result. -/
theorem busWrite_imageAt_other (r : BusResult) (other : a ≠ w.addr) : (s.busWrite w r).imageAt a = s.imageAt a := by
  have other' : a.toNat ≠ w.addr.toNat := fun h => other (BitVec.eq_of_toNat_eq h)
  cases r with
  | ok => exact Memory.read_write_other other'
  | fail => exact Memory.read_forget_other other'

theorem busWrite_ok_imageAt_same : (s.busWrite w .ok).imageAt w.addr = some w.data :=
  Memory.read_write_same ..

theorem busWrite_fail_imageAt_same (wf : s.image.wf) : (s.busWrite w .fail).imageAt w.addr = none :=
  Memory.read_forget_same wf.1

theorem okWrites_image_wf (wf : s.image.wf) : (okWrites s ws).image.wf := by
  induction ws generalizing s with
  | nil => exact wf
  | cons w ws ih => exact ih (s := (s.busWrite w .ok).passBoundary) (busWrite_image_wf w .ok wf)

/-- Successful transactions leave every address they do not go to. -/
theorem okWrites_imageAt_other (other : ∀ w ∈ ws, a ≠ w.addr) : (okWrites s ws).imageAt a = s.imageAt a := by
  induction ws generalizing s with
  | nil => rfl
  | cons w ws ih =>
    rw [List.forall_mem_cons] at other
    rw [okWrites, ih other.2]
    exact busWrite_imageAt_other .ok other.1

/-- Successful transactions to different addresses each leave their byte. -/
theorem okWrites_imageAt_of_mem (distinct : (ws.map Write.addr).Nodup) (mem : w ∈ ws) :
    (okWrites s ws).imageAt w.addr = some w.data := by
  induction ws generalizing s with
  | nil => cases mem
  | cons v ws ih =>
    rw [List.map_cons, List.nodup_cons] at distinct
    obtain ⟨fresh, distinct⟩ := distinct
    rw [okWrites]
    obtain rfl | later := List.mem_cons.1 mem
    · rw [okWrites_imageAt_other fun u hu same => fresh (List.mem_map.2 ⟨u, hu, same.symm⟩)]
      exact busWrite_ok_imageAt_same
    · exact ih distinct later

end image

/-! ### A four-slot command whose transaction fails (60_exceptions.md R213) -/

/-- The state in which the transaction to slot `j` is the first to fail. -/
def slotFailure (s : State) (m : Masks) (j : Nat) : State :=
  (okWrites s ((List.range j).map (slotWrite s.cfg m))).busWrite (slotWrite s.cfg m j) .fail

/-- The first failure ends a four-slot command with the address and the index of its slot. -/
theorem exec_fourSlot_first_failure {i : Instr} {s : State} {m : Masks} {j : Nat} {rest : List BusResult}
    (masks : fourSlotMasks s.cfg i = some m) (slot : j ≤ 3)
    (answers : s.answers = List.replicate j BusResult.ok ++ BusResult.fail :: rest)
    (noReset : noResetWithin (j + 1) s.resets = true) :
    exec i s = .next ((slotFailure s m j).passBoundary.raise (.busWriteFailure (digitAddr s.cfg j) j)) := by
  rw [exec_fourSlot masks, slotWrites_split s.cfg m slot,
    transact_first_failure i 0 _ _ _ s rest (by simpa using answers) (by simpa using noReset)]
  rfl

section slotFailure
variable {s : State} {m : Masks} {j k : Nat}

@[simp] theorem slotFailure_responses : (slotFailure s m j).responses = s.responses := by
  simp [slotFailure]

/-- The failed slot holds no known value. -/
theorem slotFailure_imageAt_failed (wf : s.image.wf) : (slotFailure s m j).imageAt (digitAddr s.cfg j) = none :=
  busWrite_fail_imageAt_same (w := slotWrite s.cfg m j) (okWrites_image_wf wf)

/-- A slot before the failed one holds its new byte. -/
theorem slotFailure_imageAt_before (slot : j ≤ 3) (before : k < j) :
    (slotFailure s m j).imageAt (digitAddr s.cfg k) = some (m.get k) := by
  have distinct : (((List.range j).map (slotWrite s.cfg m)).map Write.addr).Nodup := by
    rw [List.map_map]
    refine List.Nodup.map_on (fun a ha b hb same => ?_) List.nodup_range
    rw [List.mem_range] at ha hb
    exact digitAddr_inj s.cfg (by omega) (by omega) same
  have written : slotWrite s.cfg m k ∈ (List.range j).map (slotWrite s.cfg m) :=
    List.mem_map_of_mem (List.mem_range.2 before)
  have other : digitAddr s.cfg k ≠ digitAddr s.cfg j := fun same =>
    before.ne (digitAddr_inj s.cfg (by omega) slot same)
  rw [slotFailure, busWrite_imageAt_other .fail other]
  exact okWrites_imageAt_of_mem distinct written

/-- An address that is none of the slots 0..j is as it was. -/
theorem slotFailure_imageAt_other {a : Byte} (other : ∀ k ≤ j, a ≠ digitAddr s.cfg k) :
    (slotFailure s m j).imageAt a = s.imageAt a := by
  rw [slotFailure, busWrite_imageAt_other .fail (other j le_rfl)]
  refine okWrites_imageAt_other fun w mem => ?_
  obtain ⟨k, before, rfl⟩ := List.mem_map.1 mem
  exact other k (List.mem_range.1 before).le

end slotFailure

end Sys2Proof.Machine

namespace Sys2Proof

open Machine

/-- Settles O20: the slot is checked first, no other operand raises InvalidSlot, and WriteSlots lists slots 0..3. -/
theorem invalidSlotOnlyFromWriteDigit : Obligations.InvalidSlotOnlyFromWriteDigit := by
  refine ⟨fun slot mask s illegal => ?_, fun i s t r run new status => ?_, fun i s t m x run masks new => ?_⟩
  · exact exec_writeDigit_of_illegal mask s (slotLegal_eq_false_iff.2 illegal)
  · obtain ⟨e, raised, invalid⟩ :=
      operandExn_of_new_response (st := .invalidSlot) run new status (by decide) (by decide)
    obtain ⟨slot, mask, rfl, illegal, -⟩ | ⟨_, -, -, rfl⟩ | ⟨_, _, _, -, -, rfl⟩ := operandExn_eq_some raised
    · exact ⟨slot, mask, rfl, slotLegal_eq_false_iff.1 illegal⟩
    · cases invalid
    · cases invalid
  · exact exec_fourSlot_new_addr run masks new

/-- Settles O28: counts and capacities are checked first, and no other operand raises OutOfRange. -/
theorem outOfRangeCauses : Obligations.OutOfRangeCauses := by
  refine ⟨fun count s illegal => ?_, fun raw mode cap s illegal => ?_, fun i s t r run new status => ?_⟩
  · have illegal := countLegal_eq_false_iff.2 illegal
    have raised : operandExn (.scale count) = some (.outOfRange (a32 count)) := by simp [operandExn, illegal]
    exact ⟨exec_of_operandExn_outOfRange s raised, exec_of_operandExn_outOfRange s raised⟩
  · have illegal := capLegal_eq_false_iff.2 illegal
    have raised : operandExn (.reduce raw mode cap) = some (.outOfRange (cap.setWidth 32)) := by simp [operandExn, illegal]
    exact ⟨exec_of_operandExn_outOfRange s raised, exec_of_operandExn_outOfRange s raised⟩
  · obtain ⟨e, raised, range⟩ :=
      operandExn_of_new_response (st := .outOfRange) run new status (by decide) (by decide)
    obtain ⟨_, _, -, -, rfl⟩ | ⟨count, form, illegal, -⟩ | ⟨raw, mode, cap, form, illegal, -⟩ := operandExn_eq_some raised
    · cases range
    · exact .inl ⟨count, form, countLegal_eq_false_iff.1 illegal⟩
    · exact .inr ⟨raw, mode, cap, form, capLegal_eq_false_iff.1 illegal⟩

/-- Settles O35: the slots below the failed one were written ok, and no transaction went above it or to CTRL_ADDR. -/
theorem failureIndexTellsSlots : Obligations.FailureIndexTellsSlots := by
  intro i s m j rest masks slot wf answers noReset
  refine ⟨_, exec_fourSlot_first_failure masks slot answers noReset, ?_, fun k before => ?_, ?_, fun k above legal => ?_, ?_⟩
  · simp [raise_eq_respond, Exn.status, Exn.info]
  · exact slotFailure_imageAt_before slot before
  · exact slotFailure_imageAt_failed wf
  · exact slotFailure_imageAt_other fun n le same => by
      have := digitAddr_inj s.cfg legal (by omega) same
      omega
  · exact slotFailure_imageAt_other fun n le same => digitAddr_ne_ctrlAddr s.cfg (by omega) same.symm

end Sys2Proof
end

section
/-! SUPPORT. What a reset does and when the Idle block takes it (70_reset_and_hazards.md R230, R231). -/

namespace Sys2Proof.Machine

@[simp] theorem takeReset_trace (s : State) : s.takeReset.trace = s.trace := by
  simp [trace_of_log (takeReset_log s)]

/-- The Idle block takes a reset that is due before it looks at its command port. -/
theorem fetch_of_resetDue {s : State} (due : s.resetDue = true) : fetch s = .done s.takeReset :=
  if_pos due

/-- An Idle block whose fetch leaves no command to run has finished its step. -/
theorem step_of_fetch_done {s t : State} (idle : s.phase = .idle) (fetched : fetch s = .done t) : step s = .next t := by
  rw [step, idle]
  simp only [fetched]

end Sys2Proof.Machine

namespace Sys2Proof

open Machine

/-- Settles O49: a reset is logged as no transaction and no response, and the Idle block looks for it first. -/
theorem resetSetsInitialRegisters : Obligations.ResetSetsInitialRegisters := by
  refine ⟨fun s => ?_, fun s resets idle pending => ?_⟩
  · exact ⟨takeReset_pwr s, takeReset_bri s, takeReset_phase s, takeReset_trace s, takeReset_responses s,
      takeReset_cfg s, takeReset_image s⟩
  · have due : s.resetDue = true := resetDue_iff.2 ⟨resets, pending⟩
    exact step_of_fetch_done idle (fetch_of_resetDue due)

end Sys2Proof
end

section
/-! SUPPORT. Decoding and encoding undo each other, and which words the decoder rejects (30_encoding.md sections 2–5). -/

namespace Sys2Proof

/-! ### Decoding what was encoded -/

/-- Every encoded word carries its opcode, its format's opcode map entry and no reserved bit. -/
theorem encode_fields (i : Instr) : Laws.EncodedFields.Statement i := by
  cases i with
  | lookup sym => exact Laws.EncodedFields.lookup sym
  | setBrightness val => exact Laws.EncodedFields.setBrightness val
  | powerOn => exact Laws.EncodedFields.powerOn
  | powerOff => exact Laws.EncodedFields.powerOff
  | clear => exact Laws.EncodedFields.clear
  | writeDigit slot mask => exact Laws.EncodedFields.writeDigit slot mask
  | showText elems => exact Laws.EncodedFields.showText elems
  | showSegments elems => exact Laws.EncodedFields.showSegments elems
  | scale count => exact Laws.EncodedFields.scale count
  | render count => exact Laws.EncodedFields.render count
  | reduce raw mode cap => exact Laws.EncodedFields.reduce raw mode cap
  | renderPos raw mode cap => exact Laws.EncodedFields.renderPos raw mode cap

/-- A word of a defined opcode decodes by its reserved bits and then its operands. -/
theorem decode_of_format {w : CmdWord} {f : Format} (format : formatOf (opcodeOf w) = some f) :
    decode w = if w &&& f.reservedMask = 0#72 then commandOf w else .error .reservedBit := by
  simp only [decode, format]

@[simp] theorem opcodeOf_word (opc : Byte) (a bf : Word32) : opcodeOf (wordOfFields opc a bf) = opc := field_opc opc a bf

@[simp] theorem signedA_word (opc : Byte) (a bf : Word32) : signedA (wordOfFields opc a bf) = a.toInt := by
  rw [signedA, field_A]

@[simp] theorem maskOf_word (opc : Byte) (a bf : Word32) : maskOf (wordOfFields opc a bf) = bf := field_Bf opc a bf

/-- The symbol of a word of format L. -/
@[simp] theorem symbol_word (opc sym : Byte) (bf : Word32) :
    field (wordOfFields opc (sym.setWidth 32) bf) 8 8 = sym := by
  rw [field_in_A _ _ _ (by decide) (by decide), BitVec.extractLsb'_setWidth_of_le (by decide),
    BitVec.extractLsb'_eq_self]

/-- The operands of a command that a word can carry survive its word. -/
theorem commandOf_encode {i : Instr} (fits : i.wf = true) : commandOf (encode i) = .ok i := by
  cases i with
  | lookup sym => simp [commandOf, encode, Instr.opcode]
  | powerOn | powerOff | clear => simp [commandOf, encode, Instr.opcode]
  | setBrightness | scale | render | writeDigit => simp [commandOf, encode, Instr.opcode, toInt_a32 fits]
  | showText | showSegments => simp [commandOf, encode, Instr.opcode, elementsOf_word]
  | reduce | renderPos => simp [commandOf, encode, Instr.opcode, toInt_a32 fits]

/-! ### Encoding what was decoded -/

/-- A word is made of the fields it carries. -/
theorem wordOfFields_eq_of_fields {w : CmdWord} {opc : Byte} {a bf : Word32} (opcode : opcodeOf w = opc)
    (fieldA : field w 8 32 = a) (fieldBf : field w 40 32 = bf) : wordOfFields opc a bf = w := by
  rw [← opcode, ← fieldA, ← fieldBf]
  exact word_eq_fields w

/-- A field inside a field that is zero is zero. -/
theorem field_eq_zero_of_within {w : CmdWord} {lo len lo' len' : Nat} (zero : field w lo len = 0) (above : lo ≤ lo')
    (below : lo' + len' ≤ lo + len) : field w lo' len' = 0 := by
  have inner : field w lo' len' = (field w lo len).extractLsb' (lo' - lo) len' := by
    ext k hk
    simp only [field, BitVec.getElem_extractLsb', BitVec.getLsbD_extractLsb']
    simp [show lo' - lo + k < len by omega, show lo + (lo' - lo + k) = lo' + k by omega]
  rw [inner, zero]
  simp

/-- A 32-bit field with nothing above its lowest byte is that byte. -/
theorem field_eq_setWidth_of_high_zero {w : CmdWord} {lo : Nat} (high : field w (lo + 8) 24 = 0) :
    field w lo 32 = (field w lo 8).setWidth 32 := by
  ext k hk
  have bit := congrArg (BitVec.getLsbD · (k - 8)) high
  simp only [field, BitVec.getLsbD_extractLsb'] at bit
  simp only [field, BitVec.getElem_extractLsb', BitVec.getElem_setWidth, BitVec.getLsbD_extractLsb']
  by_cases low : k < 8
  · simp [low]
  · simpa [low, show k - 8 < 24 by omega, show lo + 8 + (k - 8) = lo + k by omega] using bit

/-- Bf of format P is MODE and CAP when its reserved bits are 0. -/
theorem fieldBf_eq_of_high_zero {w : CmdWord} (high : field w 56 16 = 0#16) :
    field w 40 32 = 0#16 ++ field w 48 8 ++ field w 40 8 := by
  rw [← high]
  apply BitVec.eq_of_getLsbD_eq
  intro k hk
  simp only [field, BitVec.getLsbD_append, BitVec.getLsbD_extractLsb']
  by_cases inMode : k < 8
  · simp [hk, inMode]
  · by_cases inCap : k - 8 < 8
    · simp [hk, inMode, inCap, show 48 + (k - 8) = 40 + k by omega]
    · simp [hk, inMode, inCap, show k - 8 - 8 < 16 by omega, show 56 + (k - 8 - 8) = 40 + k by omega]

section formats
variable {w : CmdWord} {opc : Byte} (opcode : opcodeOf w = opc)
include opcode

theorem word_of_format_N (clean : w &&& Format.N.reservedMask = 0#72) : wordOfFields opc 0 0 = w := by
  rw [reserved_N] at clean
  exact wordOfFields_eq_of_fields opcode (field_eq_zero_of_within clean (by decide) (by decide))
    (field_eq_zero_of_within clean (by decide) (by decide))

theorem word_of_format_L (clean : w &&& Format.L.reservedMask = 0#72) :
    wordOfFields opc ((field w 8 8).setWidth 32) 0 = w := by
  rw [reserved_L] at clean
  exact wordOfFields_eq_of_fields opcode
    (field_eq_setWidth_of_high_zero (field_eq_zero_of_within clean (by decide) (by decide)))
    (field_eq_zero_of_within clean (by decide) (by decide))

theorem word_of_format_V (clean : w &&& Format.V.reservedMask = 0#72) : wordOfFields opc (a32 (signedA w)) 0 = w := by
  rw [reserved_V] at clean
  exact wordOfFields_eq_of_fields opcode (a32_toInt _).symm clean

theorem word_of_format_D : wordOfFields opc (a32 (signedA w)) (maskOf w) = w :=
  wordOfFields_eq_of_fields opcode (a32_toInt _).symm rfl

theorem word_of_format_T (clean : w &&& Format.T.reservedMask = 0#72) :
    wordOfFields opc (elementsOf w).fieldA ((elementsOf w).len.setWidth 32) = w := by
  rw [reserved_T] at clean
  exact wordOfFields_eq_of_fields opcode (fieldA_elementsOf w).symm (field_eq_setWidth_of_high_zero clean)

theorem word_of_format_P {mode : Mode} (legal : modeOf w = some mode) (clean : w &&& Format.P.reservedMask = 0#72) :
    wordOfFields opc (a32 (signedA w)) (fieldModeCap mode (capOf w)) = w := by
  rw [reserved_P] at clean
  refine wordOfFields_eq_of_fields opcode (a32_toInt _).symm ?_
  rw [fieldBf_eq_of_high_zero clean, fieldModeCap, modeOf_code legal, capOf]

end formats

/-- The word of a decoded command: it has the opcode of its command, its operands are in range, and with no reserved
bit set it is the command's encoding. -/
theorem commandOf_sound {w : CmdWord} {i : Instr} (decoded : commandOf w = .ok i) :
    opcodeOf w = i.opcode ∧ i.wf = true ∧ (w &&& i.format.reservedMask = 0#72 → encode i = w) := by
  have opcode : ∀ {opc : Byte}, (opcodeOf w).toNat = opc.toNat → opcodeOf w = opc := BitVec.eq_of_toNat_eq
  have fits : inS32 (signedA w) = true := inS32_toInt _
  unfold commandOf at decoded
  split at decoded <;> rename_i e
  case h_1 => cases decoded; exact ⟨opcode e, rfl, word_of_format_L (opcode e)⟩
  case h_2 => cases decoded; exact ⟨opcode e, fits, word_of_format_V (opcode e)⟩
  case h_3 => cases decoded; exact ⟨opcode e, rfl, word_of_format_N (opcode e)⟩
  case h_4 => cases decoded; exact ⟨opcode e, rfl, word_of_format_N (opcode e)⟩
  case h_5 => cases decoded; exact ⟨opcode e, rfl, word_of_format_N (opcode e)⟩
  case h_6 => cases decoded; exact ⟨opcode e, fits, fun _ => word_of_format_D (opcode e)⟩
  case h_7 => cases decoded; exact ⟨opcode e, rfl, word_of_format_T (opcode e)⟩
  case h_8 => cases decoded; exact ⟨opcode e, rfl, word_of_format_T (opcode e)⟩
  case h_9 => cases decoded; exact ⟨opcode e, fits, word_of_format_V (opcode e)⟩
  case h_10 => cases decoded; exact ⟨opcode e, fits, word_of_format_V (opcode e)⟩
  case h_11 =>
    split at decoded <;> rename_i legal
    · cases decoded; exact ⟨opcode (opc := 0x0B) e, fits, word_of_format_P (opcode (opc := 0x0B) e) legal⟩
    · cases decoded
  case h_12 =>
    split at decoded <;> rename_i legal
    · cases decoded; exact ⟨opcode (opc := 0x0C) e, fits, word_of_format_P (opcode (opc := 0x0C) e) legal⟩
    · cases decoded
  case h_13 => cases decoded

/-- A word that decodes has a defined opcode, no reserved bit, and operands that read as its command. -/
theorem decode_eq_ok {w : CmdWord} {i : Instr} (decoded : decode w = .ok i) :
    ∃ f, formatOf (opcodeOf w) = some f ∧ w &&& f.reservedMask = 0#72 ∧ commandOf w = .ok i := by
  unfold decode at decoded
  split at decoded
  · cases decoded
  · rename_i f format
    split at decoded
    · rename_i clean
      exact ⟨f, format, clean, decoded⟩
    · cases decoded

/-! ### The illegal words (30_encoding.md R66, R67, R69) -/

/-- Why a word of this format is rejected: no format, a reserved bit, or MODE. -/
def rejectedBy (w : CmdWord) : Option Format → Prop
  | none => True
  | some f => w &&& f.reservedMask ≠ 0#72 ∨ f = .P ∧ modeOf w = none

/-- R66, R67 and R69 list the words by the format of their opcode. -/
theorem illegalWord_iff_rejectedBy (w : CmdWord) : Machine.illegalWord w ↔ rejectedBy w (formatOf (opcodeOf w)) := by
  have opcode : (field w 0 8).toNat = (opcodeOf w).toNat := rfl
  unfold formatOf
  split <;> rename_i e
  case h_13 =>
    have undefined : (opcodeOf w).toNat = 0 ∨ 0x0D ≤ (opcodeOf w).toNat := by
      simp only [imp_false] at *
      omega
    exact iff_of_true (undefined.imp_right .inl) trivial
  all_goals
    simp [Machine.illegalWord, opcode, rejectedBy, e, reserved_N, reserved_L, reserved_V, reserved_D, reserved_T,
      reserved_P, modeOf_none_iff]

/-- Only MODE makes a word of a defined opcode no command. -/
theorem commandOf_error_iff {w : CmdWord} {f : Format} (format : formatOf (opcodeOf w) = some f) :
    (∃ r, commandOf w = .error r) ↔ f = .P ∧ modeOf w = none := by
  unfold formatOf at format
  split at format <;> rename_i e <;> cases format <;> simp [commandOf, e]
  -- Format P is left, where MODE decides.
  all_goals cases modeOf w <;> simp

theorem decode_error_iff_rejectedBy (w : CmdWord) :
    (∃ r, decode w = .error r) ↔ rejectedBy w (formatOf (opcodeOf w)) := by
  cases format : formatOf (opcodeOf w) with
  | none => 
    simp [decode, format, rejectedBy]
  | some f =>
    rw [decode_of_format format, rejectedBy, ← commandOf_error_iff format]
    split <;> simp [*]

/-- Settles O5: the word carries its opcode and no reserved bit, and its operands read back. -/
theorem decodeOfEncode : Obligations.DecodeOfEncode := by
  intro i fits
  obtain ⟨opcode, format, clean⟩ := encode_fields i
  have defined : formatOf (opcodeOf (encode i)) = some i.format := by
    rw [opcodeOf, opcode]
    exact format
  rw [decode_of_format defined, if_pos clean, commandOf_encode fits]

/-- Settles O6: the opcode of a word that decodes fixes its format, and each format's fields make up the word. -/
theorem encodeOfDecode : Obligations.EncodeOfDecode := by
  intro w i decoded
  obtain ⟨f, format, clean, command⟩ := decode_eq_ok decoded
  obtain ⟨opcode, fits, encodes⟩ := commandOf_sound command
  obtain ⟨-, format', -⟩ := encode_fields i
  obtain rfl : f = i.format := Option.some.inj (format.symm.trans (opcode ▸ format'))
  exact ⟨fits, encodes clean⟩

/-- Settles O7: both sides reject by the format of the opcode. -/
theorem illegalWordsExactly : Obligations.IllegalWordsExactly := fun w =>
  (illegalWord_iff_rejectedBy w).trans (decode_error_iff_rejectedBy w).symm

end Sys2Proof
end

section
/-! SUPPORT. What every run of a command keeps and adds, however it ends (10_state.md, 20_memory.md R50, R51). -/

namespace Sys2Proof.Machine

/-! ### Raising an exception, field by field -/

section raise
variable (s : State) (e : Exn)

@[simp] theorem raise_cfg : (s.raise e).cfg = s.cfg := rfl
@[simp] theorem raise_pwr : (s.raise e).pwr = s.pwr := rfl
@[simp] theorem raise_bri : (s.raise e).bri = s.bri := rfl
@[simp] theorem raise_phase : (s.raise e).phase = .idle := rfl
@[simp] theorem raise_log : (s.raise e).log = s.log ++ [.response (responseWord e.status e.info)] := rfl
@[simp] theorem raise_commands : (s.raise e).commands = s.commands := rfl
@[simp] theorem raise_answers : (s.raise e).answers = s.answers := rfl

end raise

/-! ### A sequence of transactions, however it ends -/

namespace TransactEnd

variable {cmd : Instr} {k : Nat} {ws : List Write} {s t : State} (h : TransactEnd cmd k ws s t)
include h

theorem cfg_eq : t.cfg = s.cfg := by
  cases h <;> (subst t; simp)

theorem commands_eq : t.commands = s.commands := by
  cases h <;> (subst t; simp)

/-- Only a reset among its events changes a register. -/
theorem registers_or_reset :
    (∃ new, t.log = s.log ++ new ∧ Event.reset ∈ new) ∨ t.pwr = s.pwr ∧ t.bri = s.bri := by
  cases h with
  | done rest hok hreset ht => subst ht; exact .inr (by simp)
  | waits before after w hws hok hreset ht => subst ht; exact .inr (by simp)
  | cut before after w r rest resets hws hok hreset ht =>
    subst ht
    exact .inl ⟨before.map (·.event .ok) ++ [w.event r, .reset], by simp, by simp⟩
  | failed before after w rest hws hok hreset ht => subst ht; exact .inr (by simp)

/-- Without a reset no register changes. -/
theorem registers_eq (noReset : noResetWithin ws.length s.resets = true) : t.pwr = s.pwr ∧ t.bri = s.bri := by
  cases h with
  | done rest hok hreset ht => subst ht; simp
  | waits before after w hws hok hreset ht => subst ht; simp
  | cut before after w r rest resets hws hok hreset ht =>
    subst hws
    rw [hreset, noResetWithin, decide_eq_true_eq, List.length_append, List.length_cons] at noReset
    omega
  | failed before after w rest hws hok hreset ht => subst ht; simp

/-- An address that no listed transaction goes to reads as before. -/
theorem imageAt_other {a : Byte} (other : ∀ w ∈ ws, a ≠ w.addr) : t.imageAt a = s.imageAt a := by
  cases h with
  | done rest hok hreset ht => subst ht; exact okWrites_imageAt_other other
  | waits before after w hws hok hreset ht =>
    subst ht hws
    exact okWrites_imageAt_other fun v hv => other v (by simp [hv])
  | cut before after w r rest resets hws hok hreset ht =>
    subst ht hws
    exact (busWrite_imageAt_other r (other w (by simp))).trans
      (okWrites_imageAt_other fun v hv => other v (by simp [hv]))
  | failed before after w rest hws hok hreset ht =>
    subst ht hws
    exact (busWrite_imageAt_other .fail (other w (by simp))).trans
      (okWrites_imageAt_other fun v hv => other v (by simp [hv]))

/-- It adds transactions, then one response or one reset, or it waits for one transaction more. -/
theorem log_adds :
    ∃ (ts : List Transaction) (last : List Event), t.log = s.log ++ ts.map Event.transaction ++ last ∧
      ts.length ≤ ws.length ∧
      ((∃ r, last = [.response r] ∧ t.phase = .idle) ∨ (last = [.reset] ∧ t.phase = .idle) ∨
        (last = [] ∧ t.phase = .executing cmd (k + ts.length + 1) ∧ ts.length < ws.length ∧ t.answers = [])) := by
  have event : ∀ (w : Write) (r : BusResult), w.event r = .transaction ⟨w.addr, w.data, r⟩ := fun _ _ => rfl
  cases h with
  | done rest hok hreset ht =>
    subst ht
    exact ⟨ws.map fun w => ⟨w.addr, w.data, .ok⟩, [.response (responseWord .ok 0)], by simp [event, Function.comp_def],
      by simp, .inl ⟨_, rfl, rfl⟩⟩
  | waits before after w hws hok hreset ht =>
    subst ht hws
    exact ⟨before.map fun w => ⟨w.addr, w.data, .ok⟩, [], by simp [event], by simp,
      .inr (.inr ⟨rfl, by simp, by simp, by simp [hok]⟩)⟩
  | cut before after w r rest resets hws hok hreset ht =>
    subst ht hws
    exact ⟨(before.map fun w => ⟨w.addr, w.data, .ok⟩) ++ [⟨w.addr, w.data, r⟩], [.reset],
      by simp [event], by simp, .inr (.inl ⟨rfl, rfl⟩)⟩
  | failed before after w rest hws hok hreset ht =>
    subst ht hws
    exact ⟨(before.map fun w => ⟨w.addr, w.data, .ok⟩) ++ [⟨w.addr, w.data, .fail⟩],
      [.response (responseWord .busWriteFailure (Exn.busWriteFailure w.addr w.index).info)],
      by simp [event, Exn.status], by simp, .inl ⟨_, rfl, rfl⟩⟩

end TransactEnd

/-! ### A command, from its start or going on -/

/-- A command's run is one response, or the transactions it lists. -/
theorem exec_runs {i : Instr} {s t : State} (run : exec i s = .next t) :
    (∃ st v, registerWrite i s = s ∧ t = s.respond st v) ∨
      TransactEnd i 0 (listedWrites i (registerWrite i s)) (registerWrite i s) t := by
  obtain ⟨st, v, -, written, answers⟩ | ⟨-, transacts⟩ := exec_cases i s
  · cases run.symm.trans answers
    exact .inl ⟨st, v, written, rfl⟩
  · cases run.symm.trans transacts
    exact .inr (transact_cases ..)

/-- A command that goes on gives one response, or runs the transactions that are left. -/
theorem continueFrom_runs {i : Instr} {k : Nat} {s t : State} (run : continueFrom i k s = .next t) :
    (∃ st v, t = s.respond st v) ∨ TransactEnd i k ((listedWrites i s).drop k) s t := by
  obtain ⟨st, v, -, -, answers⟩ | ⟨-, transacts⟩ := continueFrom_cases i k s
  · cases run.symm.trans answers
    exact .inl ⟨st, v, rfl⟩
  · cases run.symm.trans transacts
    exact .inr (transact_cases ..)

/-! ### The invariant without its clause on the phase -/

/-- What the invariant says of the display image, the trace and the responses. -/
structure State.ObservedInv (s : State) : Prop where
  image_wf : s.image.wf
  image_known : ∀ a, s.imageAt a = knownByte a none s.trace
  trace_legal : ∀ t ∈ s.trace, transactionLegal s.cfg t
  responses_legal : ∀ r ∈ s.responses, (responseStatus r).toNat ≤ 4

theorem State.Inv.observed {s : State} (h : s.Inv) : s.ObservedInv :=
  ⟨h.image_wf, h.image_known, h.trace_legal, h.responses_legal⟩

theorem State.ObservedInv.inv {s : State} (h : s.ObservedInv) (phase : phaseLegal s) : s.Inv :=
  ⟨h.image_wf, h.image_known, h.trace_legal, phase, h.responses_legal⟩

theorem phaseLegal_of_idle {s : State} (idle : s.phase = .idle) : phaseLegal s := by
  simp only [phaseLegal, idle]

theorem Status.code_le (st : Status) : st.code.toNat ≤ 4 := by cases st <;> decide

/-- A transaction to one of the five addresses, with a control byte where it goes to CTRL_ADDR. -/
def Write.legal (cfg : Config) (w : Write) : Prop := ∀ r, transactionLegal cfg ⟨w.addr, w.data, r⟩

theorem digitAddr_mem_busAddrs (cfg : Config) {slot : Nat} (h : slot ≤ 3) : digitAddr cfg slot ∈ busAddrs cfg := by
  match slot, h with
  | 0, _ | 1, _ | 2, _ | 3, _ => simp [busAddrs]

theorem listedWrites_legal {i : Instr} {s : State} {w : Write} (listed : w ∈ listedWrites i s) : w.legal s.cfg := by
  intro r
  obtain rfl | ⟨slot, legal, digit⟩ := mem_listedWrites listed
  · exact ⟨by simp [controlWrite, busAddrs], fun _ => ⟨s.pwr, s.bri, rfl⟩⟩
  · refine ⟨?_, fun ctrl => absurd (digit.symm.trans ctrl) (digitAddr_ne_ctrlAddr s.cfg legal)⟩
    show w.addr ∈ _
    rw [digit]
    exact digitAddr_mem_busAddrs s.cfg legal

namespace State.ObservedInv

variable {s t : State}

/-- It speaks of the parameters, the image and the log only. -/
theorem congr (h : s.ObservedInv) (cfg : t.cfg = s.cfg) (image : t.image = s.image) (log : t.log = s.log) :
    t.ObservedInv := by
  have trace : t.trace = s.trace := by rw [State.trace, log, State.trace]
  have responses : t.responses = s.responses := by rw [State.responses, log, State.responses]
  refine ⟨image ▸ h.image_wf, fun a => ?_, ?_, ?_⟩
  · rw [State.imageAt, image, trace]
    exact h.image_known a
  · rw [trace, cfg]
    exact h.trace_legal
  · rw [responses]
    exact h.responses_legal

theorem respond (h : s.ObservedInv) (st : Status) (v : Word32) : (s.respond st v).ObservedInv where
  image_wf := h.image_wf
  image_known a := by
    rw [respond_trace]
    exact h.image_known a
  trace_legal := by
    rw [respond_trace]
    exact h.trace_legal
  responses_legal r mem := by
    rw [respond_responses, List.mem_append, List.mem_singleton] at mem
    obtain old | rfl := mem
    · exact h.responses_legal r old
    · rw [responseStatus_responseWord]
      exact st.code_le

theorem raise (h : s.ObservedInv) (e : Exn) : (s.raise e).ObservedInv := h.respond e.status e.info

theorem passBoundary (h : s.ObservedInv) : s.passBoundary.ObservedInv := h.congr rfl rfl rfl

theorem takeReset (h : s.ObservedInv) : s.takeReset.ObservedInv where
  image_wf := h.image_wf
  image_known a := by
    rw [takeReset_trace]
    exact h.image_known a
  trace_legal := by
    rw [takeReset_trace]
    exact h.trace_legal
  responses_legal := by
    rw [takeReset_responses]
    exact h.responses_legal

theorem busWrite (h : s.ObservedInv) {w : Write} (r : BusResult) (legal : w.legal s.cfg) :
    (s.busWrite w r).ObservedInv where
  image_wf := busWrite_image_wf w r h.image_wf
  image_known := busWrite_image_known w r h.image_wf h.image_known
  trace_legal x mem := by
    have trace : (s.busWrite w r).trace = s.trace ++ [⟨w.addr, w.data, r⟩] := trace_of_log (busWrite_log ..)
    rw [trace, List.mem_append, List.mem_singleton] at mem
    obtain old | rfl := mem
    · exact h.trace_legal x old
    · exact legal r
  responses_legal := by
    rw [busWrite_responses]
    exact h.responses_legal

theorem okWrites (h : s.ObservedInv) {ws : List Write} (legal : ∀ w ∈ ws, w.legal s.cfg) :
    (okWrites s ws).ObservedInv := by
  induction ws generalizing s with
  | nil => exact h
  | cons w ws ih =>
    rw [List.forall_mem_cons] at legal
    exact ih (h.busWrite .ok legal.1).passBoundary legal.2

theorem transact {cmd : Instr} {k : Nat} {ws : List Write} (h : s.ObservedInv) (legal : ∀ w ∈ ws, w.legal s.cfg)
    (ends : TransactEnd cmd k ws s t) : t.ObservedInv := by
  cases ends with
  | done rest hok hreset ht => subst ht; exact (h.okWrites legal).respond _ _
  | waits before after w hws hok hreset ht =>
    subst ht hws
    exact (h.okWrites fun v hv => legal v (by simp [hv])).congr rfl rfl rfl
  | cut before after w r rest resets hws hok hreset ht =>
    subst ht hws
    exact ((h.okWrites fun v hv => legal v (by simp [hv])).busWrite r
      (by rw [okWrites_cfg]; exact legal w (by simp))).takeReset
  | failed before after w rest hws hok hreset ht =>
    subst ht hws
    exact ((h.okWrites fun v hv => legal v (by simp [hv])).busWrite .fail
      (by rw [okWrites_cfg]; exact legal w (by simp))).passBoundary.raise _

end State.ObservedInv

/-! ### The phase after a run -/

/-- A run that starts with `k` listed transactions returned waits, if it waits, with those issued since returned too. -/
theorem TransactEnd.phaseLegal {cmd : Instr} {k : Nat} {s t : State}
    (ends : TransactEnd cmd k ((listedWrites cmd s).drop k) s t) (fits : cmd.wf = true)
    (written : registerWrite cmd s = s)
    (returned : ∃ before, s.log = before ++ ((listedWrites cmd s).take k).map (·.event .ok)) : phaseLegal t := by
  cases ends with
  | done rest hok hreset ht => exact phaseLegal_of_idle (by rw [ht, respond_phase])
  | cut before after w r rest resets hws hok hreset ht => exact phaseLegal_of_idle (by rw [ht, takeReset_phase])
  | failed before after w rest hws hok hreset ht => exact phaseLegal_of_idle (by rw [ht, raise_phase])
  | waits before after w hws hok hreset ht =>
    subst ht
    obtain ⟨old, log⟩ := returned
    have listed : listedWrites cmd { Machine.okWrites s before with phase := .executing cmd (k + before.length + 1) } =
        listedWrites cmd s := listedWrites_congr cmd (by simp) (by simp) (by simp)
    have count := congrArg List.length hws
    rw [List.length_drop, List.length_append, List.length_cons] at count
    have issued : (listedWrites cmd s).take (k + before.length) = (listedWrites cmd s).take k ++ before := by
      rw [List.take_add, hws, List.take_left]
    refine ⟨fits, registerWrite_eq_self_of written (by simp) (by simp), by omega, ?_, old, ?_⟩
    · rw [listed]
      omega
    · rw [listed, Nat.add_sub_cancel, issued, List.map_append, ← List.append_assoc, ← log]
      exact okWrites_log s before

/-! ### The invariant after a command's run -/

theorem inv_of_exec {i : Instr} {s t : State} (observed : s.ObservedInv) (fits : i.wf = true)
    (run : exec i s = .next t) : t.Inv := by
  obtain ⟨st, v, -, rfl⟩ | ends := exec_runs run
  · exact (observed.respond st v).inv (phaseLegal_of_idle rfl)
  · have start : (registerWrite i s).ObservedInv := observed.congr (by simp) (by simp) (by simp)
    exact (start.transact (fun w listed => listedWrites_legal listed) ends).inv
      (ends.phaseLegal (k := 0) fits (registerWrite_idem i s) ⟨s.log, by simp⟩)

theorem inv_of_continueFrom {cmd : Instr} {k : Nat} {s t : State} (inv : s.Inv) (phase : s.phase = .executing cmd k)
    (run : continueFrom cmd (k - 1) s = .next t) : t.Inv := by
  have legal := inv.phase_legal
  simp only [Machine.phaseLegal, phase] at legal
  obtain ⟨fits, written, -, -, returned⟩ := legal
  obtain ⟨st, v, rfl⟩ | ends := continueFrom_runs run
  · exact (inv.observed.respond st v).inv (phaseLegal_of_idle rfl)
  · exact (inv.observed.transact (fun w left => listedWrites_legal (List.mem_of_mem_drop left)) ends).inv
      (ends.phaseLegal fits written returned)

end Sys2Proof.Machine

namespace Sys2Proof

open Machine

/-- Settles O57: a word's command is one a word can carry, and its run keeps what is observed and leaves a legal phase. -/
theorem invariantKeptByStep : Obligations.InvariantKeptByStep := by
  intro s t inv run
  have observed := inv.observed
  have accepted : ∀ rest, ({ s.passBoundary with commands := rest } : State).ObservedInv := fun _ =>
    observed.congr rfl rfl rfl
  cases step_cases run with
  | reset hphase hdue ht => subst ht; exact observed.takeReset.inv (phaseLegal_of_idle rfl)
  | waits hphase hdue hcmd ht => exact ht ▸ inv
  | taken w rest hphase hdue hcmd hdue₂ ht =>
    subst ht
    exact (accepted rest).takeReset.inv (phaseLegal_of_idle rfl)
  | illegal w rest r hphase hdue hcmd hdue₂ hdec ht =>
    subst ht
    exact ((accepted rest).passBoundary.raise _).inv (phaseLegal_of_idle rfl)
  | runs w rest i hphase hdue hcmd hdue₂ hdec hexec =>
    refine inv_of_exec ?_ (encodeOfDecode w i hdec).1 hexec
    exact observed.congr rfl rfl rfl
  | resumes cmd k hphase hresume => exact inv_of_continueFrom inv hphase hresume

/-- Settles O58: at power-up nothing is observed and the block is Idle. -/
theorem invariantHoldsAtReset : Obligations.InvariantHoldsAtReset where
  image_wf := reset_image_wf
  image_known _ := rfl
  trace_legal _ mem := absurd mem List.not_mem_nil
  phase_legal := phaseLegal_of_idle rfl
  responses_legal _ mem := absurd mem List.not_mem_nil

end Sys2Proof
end

section
/-! SUPPORT. What each command does when its transactions are ok, fail or are cut off (41_display_controller.md,
42_scale_renderer.md, 70_reset_and_hazards.md R231). -/

namespace Sys2Proof.Machine

/-! ### Runs of one transaction -/

/-- A command of one transaction whose transaction fails: the transaction, FAIL, then BusWriteFailure with index 0. -/
def oneWriteFailed (addr data : Byte) (rest : List BusResult) (s : State) : State :=
  { s with
    log := s.log ++
      [.transaction ⟨addr, data, .fail⟩, .response (responseWord .busWriteFailure (addr.setWidth 32 <<< 8))]
    image := s.image.forget addr.toNat
    answers := rest
    resets := resetsAfter 1 s.resets
    phase := .idle }

section oneWriteDone
variable (addr data : Byte) (rest : List BusResult) (s : State)

@[simp] theorem oneWriteDone_cfg : (oneWriteDone addr data rest s).cfg = s.cfg := rfl
@[simp] theorem oneWriteDone_pwr : (oneWriteDone addr data rest s).pwr = s.pwr := rfl
@[simp] theorem oneWriteDone_bri : (oneWriteDone addr data rest s).bri = s.bri := rfl
@[simp] theorem oneWriteDone_answers : (oneWriteDone addr data rest s).answers = rest := rfl
@[simp] theorem oneWriteDone_resets : (oneWriteDone addr data rest s).resets = resetsAfter 1 s.resets := rfl
@[simp] theorem oneWriteDone_trace : (oneWriteDone addr data rest s).trace = s.trace ++ [⟨addr, data, .ok⟩] :=
  trace_of_log (t := oneWriteDone addr data rest s) rfl
@[simp] theorem oneWriteDone_imageAt : (oneWriteDone addr data rest s).imageAt addr = some data :=
  Memory.read_write_same ..

end oneWriteDone

theorem oneWriteFailed_trace (addr data : Byte) (rest : List BusResult) (s : State) :
    (oneWriteFailed addr data rest s).trace = s.trace ++ [⟨addr, data, .fail⟩] :=
  trace_of_log (t := oneWriteFailed addr data rest s) rfl

section oneWrite
variable {cmd : Instr} {addr data : Byte} {s : State} {rest : List BusResult}

theorem transact_one_ok (answers : s.answers = .ok :: rest) (noReset : noResetWithin 1 s.resets = true) :
    transact cmd 0 [⟨addr, data, 0⟩] s = oneWriteDone addr data rest s := by
  rw [transact_all_ok cmd 0 [⟨addr, data, 0⟩] s rest answers noReset, okWrites_eq]
  simp [State.respond, oneWriteDone, Write.event, answers]

theorem transact_one_fail (answers : s.answers = .fail :: rest) (noReset : noResetWithin 1 s.resets = true) :
    transact cmd 0 [⟨addr, data, 0⟩] s = oneWriteFailed addr data rest s := by
  refine (transact_first_failure cmd 0 [] [] ⟨addr, data, 0⟩ s rest answers noReset).trans ?_
  simp [raise_eq_respond, State.respond, oneWriteFailed, Write.event, Exn.status, Exn.info, answers]

end oneWrite

/-! ### Control commands (41_display_controller.md section 2) -/

section control
variable {i : Instr} {s : State} {rest : List BusResult}

/-- CtrlByte of the registers after the command's register write. -/
def sentByte (i : Instr) (s : State) : Byte := ctrlByte (registerWrite i s).pwr (registerWrite i s).bri

theorem exec_control_ok (control : isControl i = true) (answers : s.answers = .ok :: rest)
    (noReset : noResetWithin 1 s.resets = true) :
    exec i s = .next (oneWriteDone s.cfg.ctrlAddr (sentByte i s) rest (registerWrite i s)) := by
  rw [exec_control s control, controlWrite, registerWrite_cfg, sentByte]
  exact congrArg _ (transact_one_ok (by rwa [registerWrite_answers]) (by rwa [registerWrite_resets]))

theorem exec_control_fail (control : isControl i = true) (answers : s.answers = .fail :: rest)
    (noReset : noResetWithin 1 s.resets = true) :
    exec i s = .next (oneWriteFailed s.cfg.ctrlAddr (sentByte i s) rest (registerWrite i s)) := by
  rw [exec_control s control, controlWrite, registerWrite_cfg, sentByte]
  exact congrArg _ (transact_one_fail (by rwa [registerWrite_answers]) (by rwa [registerWrite_resets]))

/-- Without a reset a control command adds its one transaction, keeps its register write and uses one answer. -/
theorem exec_control_answered {r : BusResult} (control : isControl i = true) (answers : s.answers = r :: rest)
    (noReset : noResetWithin 1 s.resets = true) :
    ∃ t, exec i s = .next t ∧ t.trace = s.trace ++ [⟨s.cfg.ctrlAddr, sentByte i s, r⟩] ∧
      t.pwr = (registerWrite i s).pwr ∧ t.bri = (registerWrite i s).bri := by
  cases r with
  | ok =>
    exact ⟨_, exec_control_ok control answers noReset, by simp, rfl, rfl⟩
  | fail =>
    exact ⟨_, exec_control_fail control answers noReset, by simp [oneWriteFailed_trace], rfl, rfl⟩

end control

/-! ### Four-slot commands (41_display_controller.md R121) -/

theorem slotWrite_mem (cfg : Config) (m : Masks) {k : Nat} (h : k ≤ 3) : slotWrite cfg m k ∈ slotWrites cfg m := by
  rw [slotWrites_eq_map]
  exact List.mem_map_of_mem (List.mem_range.2 (Nat.lt_succ_of_le h))

theorem addr_of_mem_slotWrites {cfg : Config} {m : Masks} {w : Write} (h : w ∈ slotWrites cfg m) :
    ∃ k, k ≤ 3 ∧ w.addr = digitAddr cfg k := by
  rw [slotWrites_eq_map] at h
  obtain ⟨k, inRange, rfl⟩ := List.mem_map.1 h
  exact ⟨k, Nat.le_of_lt_succ (List.mem_range.1 inRange), rfl⟩

theorem digitAddrs_nodup (cfg : Config) : ((List.range 4).map (digitAddr cfg)).Nodup := by
  refine List.Nodup.map_on (fun a ha b hb same => ?_) List.nodup_range
  rw [List.mem_range] at ha hb
  exact digitAddr_inj cfg (by omega) (by omega) same

theorem slotWrites_addr_nodup (cfg : Config) (m : Masks) : ((slotWrites cfg m).map Write.addr).Nodup :=
  digitAddrs_nodup cfg

section fourSlot
variable {i : Instr} {s : State} {m : Masks} {rest : List BusResult}

theorem exec_fourSlot_eq_okWrites (masks : fourSlotMasks s.cfg i = some m)
    (answers : s.answers = .ok :: .ok :: .ok :: .ok :: rest) (noReset : noResetWithin 4 s.resets = true) :
    exec i s = .next ((okWrites s (slotWrites s.cfg m)).respond .ok 0) := by
  rw [exec_fourSlot masks, transact_all_ok i 0 (slotWrites s.cfg m) s rest answers noReset]

theorem exec_fourSlot_ok (masks : fourSlotMasks s.cfg i = some m)
    (answers : s.answers = .ok :: .ok :: .ok :: .ok :: rest) (noReset : noResetWithin 4 s.resets = true) :
    exec i s = .next (fourSlotsDone m rest s) := by
  rw [exec_fourSlot_eq_okWrites masks answers noReset, okWrites_eq]
  simp [State.respond, fourSlotsDone, slotWrites, Write.event, answers]

/-- A reset due after the transaction to slot `j`. -/
theorem exec_fourSlot_cut {j : Nat} {r : BusResult} {resets : List Nat} (masks : fourSlotMasks s.cfg i = some m)
    (slot : j ≤ 3) (answers : s.answers = List.replicate j BusResult.ok ++ r :: rest) (due : s.resets = j :: resets) :
    exec i s = .next
      ((okWrites s ((List.range j).map (slotWrite s.cfg m))).busWrite (slotWrite s.cfg m j) r).takeReset := by
  rw [exec_fourSlot masks, slotWrites_split s.cfg m slot,
    transact_cut i 0 _ _ _ r s rest resets (by simpa using answers) (by simpa using due)]

end fourSlot

/-- An absent element is blank, a present one its mask; LEN above 4 acts as 4. -/
theorem elementMasks_eq (f : Byte → Byte) (t : Elements) :
    elementMasks f t =
      ⟨if 1 ≤ t.len.toNat then f t.e0 else 0x00, if 2 ≤ t.len.toNat then f t.e1 else 0x00,
        if 3 ≤ t.len.toNat then f t.e2 else 0x00, if 4 ≤ t.len.toNat then f t.e3 else 0x00⟩ := by
  simp [elementMasks, Masks.ofSlots, elementPresent, elementByte, Nat.succ_le_iff]

/-! ### WRITE_DIGIT (41_display_controller.md R126) -/

theorem exec_writeDigit_of_legal {slot : Int} (mask : Word32) (s : State) (h : slotLegal slot = true) :
    exec (.writeDigit slot mask) s =
      .next (transact (.writeDigit slot mask) 0 [⟨digitAddr s.cfg slot.toNat, mask.extractLsb' 0 8, 0⟩] s) := by
  have low : mask.extractLsb' 0 8 = mask.setWidth 8 := rfl
  simp [exec, execWriteDigit, writeDigitFrom, h, digitWrite, low]

theorem slotLegal_iff {slot : Int} : slotLegal slot = true ↔ 0 ≤ slot ∧ slot ≤ 3 := by
  simp only [slotLegal, Bool.and_eq_true, decide_eq_true_eq]

end Sys2Proof.Machine

namespace Sys2Proof

open Machine

/-- Settles O14: the register write clamps VAL, and the byte is made of the registers after it. -/
theorem setBrightnessClampsAndSends : Obligations.SetBrightnessClampsAndSends := by
  intro val bri s rest clamped answers noReset
  have stored : BitVec.ofInt 3 (clamp val 0 7) = bri := by
    rw [clamp_eq_max_min val (by decide)]
    obtain ⟨low, rfl⟩ | ⟨high, rfl⟩ | inRange := clamped
    · rw [show max 0 (min val 7) = 0 by omega]; rfl
    · rw [show max 0 (min val 7) = 7 by omega]; rfl
    · rw [show max 0 (min val 7) = bri.toNat by omega]
      exact BitVec.ofNat_toNat ..
  rw [exec_control_ok rfl answers noReset]
  simp only [sentByte, registerWrite, stored]
  rfl

/-- Settles O15: the byte is made of the PWR just written and BRI. -/
theorem powerCommandsWriteAndSend : Obligations.PowerCommandsWriteAndSend := by
  intro s rest answers noReset
  have off : ∀ bri, ctrlByte 0 bri = bri.setWidth 8 <<< 4 := by decide
  constructor
  · exact exec_control_ok rfl answers noReset
  · rw [exec_control_ok rfl answers noReset, sentByte]
    simp only [registerWrite, off]
    rfl

/-- Settles O16: the failure ends the command after its register write, and a failed write's address is forgotten. -/
theorem controlFailureKeepsRegister : Obligations.ControlFailureKeepsRegister := by
  intro i s rest control answers noReset
  have run := exec_control_fail control answers noReset
  refine ⟨?_, fun wf t run' => ?_⟩
  · simpa [oneWriteFailed, sentByte] using run
  · cases run'.symm.trans run
    simpa [State.imageAt, oneWriteFailed] using Memory.read_forget_same wf.1

/-- Settles O17: the second register write changes nothing, so the registers give the same byte. -/
theorem repeatedControlSendsSameByte : Obligations.RepeatedControlSendsSameByte := by
  intro i s r rest control answers noReset
  have first := exec_control_ok control answers (noResetWithin_of_le (by decide) noReset)
  set t := oneWriteDone s.cfg.ctrlAddr (sentByte i s) (r :: rest) (registerWrite i s)
  have again : registerWrite i t = t := registerWrite_eq_self_of (registerWrite_idem i s) rfl rfl
  have same : sentByte i t = sentByte i s := by rw [sentByte, again]; rfl
  have noReset' : noResetWithin 1 t.resets = true := by
    simpa [t] using noResetWithin_resetsAfter (n := 1) (m := 1) noReset
  obtain ⟨u, second, trace, pwr, bri⟩ := exec_control_answered (s := t) (r := r) (rest := rest) control rfl noReset'
  rw [again] at pwr bri
  exact ⟨t, u, sentByte i s, first, second, by simp [t], by simpa [same, t] using trace, pwr, bri⟩

/-- Settles O18: CLEAR is the four-slot command whose masks are blank. -/
theorem clearWritesFourZeros : Obligations.ClearWritesFourZeros := fun _ _ answers noReset =>
  exec_fourSlot_ok rfl answers noReset

/-- Settles O19: a legal slot has one transaction, with the low byte of MASK. -/
theorem writeDigitWritesOneSlot : Obligations.WriteDigitWritesOneSlot := by
  intro slot mask s rest low high noReset
  rw [exec_writeDigit_of_legal mask s (slotLegal_iff.2 ⟨low, high⟩)]
  exact ⟨fun answers => congrArg _ (transact_one_ok answers noReset),
    fun answers => congrArg _ (transact_one_fail answers noReset)⟩

/-- Settles O21: the masks of the elements under Seg. -/
theorem showTextWritesLookedUpMasks : Obligations.ShowTextWritesLookedUpMasks := by
  intro t s rest answers noReset
  rw [exec_fourSlot_ok (m := elementMasks (seg s.cfg) t) rfl answers noReset, elementMasks_eq]

/-- Settles O22: the masks of the elements themselves. -/
theorem showSegmentsWritesRawMasks : Obligations.ShowSegmentsWritesRawMasks := by
  intro t s rest answers noReset
  rw [exec_fourSlot_ok (m := elementMasks id t) rfl answers noReset, elementMasks_eq]
  rfl

/-- Settles O34: the transactions before the failed one and the failed one stand in the log, then its response. -/
theorem fourSlotCommandStopsAtFirstFailure : Obligations.FourSlotCommandStopsAtFirstFailure := by
  intro i s m j rest masks slot answers noReset
  refine ⟨_, exec_fourSlot_first_failure masks slot answers noReset, ?_, rfl, ?_, ?_, ?_⟩
  · simp [slotFailure, slotWrite, Write.event, Exn.status, Exn.info]
  · simp [slotFailure]
  · simp [slotFailure]
  · simp [slotFailure, answers]

/-- Settles O36: the sequence up to the transaction at which the reset is due, then the reset. -/
theorem resetCutsCommandOff : Obligations.ResetCutsCommandOff := by
  refine ⟨fun i s m j r rest resets masks slot answers due => ?_,
    fun slot mask s r rest resets low high answers due => ?_, fun i s r rest resets control answers due => ?_⟩
  · refine ⟨_, exec_fourSlot_cut masks slot answers due, ?_, ?_, ?_, rfl, ?_⟩
    · simp [slotWrite, Write.event]
    · simp
    · simp
    · simp [due, resetsAfter]
  · refine ⟨_, (exec_writeDigit_of_legal mask s (slotLegal_iff.2 ⟨low, high⟩)).trans
      (congrArg _ (transact_cut _ 0 [] [] _ r s rest resets answers due)), ?_, rfl, rfl, rfl, ?_⟩
    · simp [Write.event]
    · simp [due]
  · refine ⟨_, (exec_control s control).trans (congrArg _ (transact_cut _ 0 [] [] _ r _ rest resets
      (by rwa [registerWrite_answers]) (by rwa [registerWrite_resets]))), ?_, ?_, ?_, rfl, ?_⟩
    · simp [Write.event, controlWrite]
    · simp
    · simp
    · simp [due]

/-- Settles O41: each of the five addresses is written once, the control register by the first command. -/
theorem bootMakesDisplayKnown : Obligations.BootMakesDisplayKnown := by
  intro c i s m rest control masks answers noReset
  have first := exec_control_ok control answers (noResetWithin_of_le (by decide) noReset)
  set t := oneWriteDone s.cfg.ctrlAddr (sentByte c s) (.ok :: .ok :: .ok :: .ok :: rest) (registerWrite c s)
  have cfg : t.cfg = s.cfg := by simp [t]
  have noReset' : noResetWithin 4 t.resets = true := by
    simpa [t] using noResetWithin_resetsAfter (n := 1) (m := 4) noReset
  have second := exec_fourSlot_eq_okWrites (s := t) (by rwa [cfg]) rfl noReset'
  rw [cfg] at second
  refine ⟨t, _, first, second, ?_, fun k hk => ?_⟩
  · calc (okWrites t (slotWrites s.cfg m)).imageAt s.cfg.ctrlAddr
      _ = t.imageAt s.cfg.ctrlAddr := okWrites_imageAt_other fun w hw ctrl => by
        obtain ⟨k, hk, digit⟩ := addr_of_mem_slotWrites hw
        exact digitAddr_ne_ctrlAddr s.cfg hk (digit.symm.trans ctrl.symm)
      _ = some (sentByte c s) := oneWriteDone_imageAt ..
      _ = _ := by simp [sentByte, t]
  · exact okWrites_imageAt_of_mem (w := slotWrite s.cfg m k) (slotWrites_addr_nodup s.cfg m) (slotWrite_mem s.cfg m hk)

end Sys2Proof
end

section
/-! SUPPORT. The commands of the linear-scale converter, and RENDER_POS as REDUCE then RENDER (42_scale_renderer.md). -/

namespace Sys2Proof.Machine

/-! ### Legal operands -/

theorem countLegal_iff {count : Int} : countLegal count = true ↔ 0 ≤ count ∧ count ≤ 31 := by
  simp only [countLegal, Bool.and_eq_true, decide_eq_true_eq]

theorem capLegal_iff {cap : Byte} : capLegal cap = true ↔ 2 ≤ cap.toNat ∧ cap.toNat ≤ 32 := by
  simp only [capLegal, Bool.and_eq_true, decide_eq_true_eq]

theorem countLegal_natCast {count : Nat} (h : count ≤ 31) : countLegal count = true := countLegal_iff.2 (by omega)

/-- R176: a reduced count is a legal count. -/
theorem countLegal_reducePos (raw : Int) (mode : Mode) {cap : Byte} (h : capLegal cap = true) :
    countLegal (reducePos raw mode cap) = true := by
  obtain ⟨atLeast, atMost⟩ := capLegal_iff.1 h
  obtain ⟨nonneg, below⟩ := reducePos_mem_range raw mode atLeast
  exact countLegal_iff.2 (by omega)

/-- A legal count survives the 32 bits of VALUE. -/
theorem toInt_ofInt_of_countLegal {count : Int} (h : countLegal count = true) : (BitVec.ofInt 32 count).toInt = count := by
  obtain ⟨low, high⟩ := countLegal_iff.1 h
  rw [BitVec.toInt_ofInt]
  exact Int.bmod_eq_of_le (by omega) (by omega)

/-! ### The masks of a count (R161) -/

theorem scaleMasks_get_eq {count slot : Nat} (h : slot ≤ 3) :
    (scaleMasks count).get slot =
      if 4 - count / 8 ≤ slot then 0xFF else if slot = 3 - count / 8 then BitVec.ofNat 8 (2 ^ (count % 8) - 1) else 0 := by
  have ones : ∀ n < 8, ((1#8) <<< n) - 1#8 = BitVec.ofNat 8 (2 ^ n - 1) := by decide
  rw [scaleMasks_get count h, ← ones _ (Nat.mod_lt _ (by decide))]
  rfl

/-! ### The count of a position (R170) -/

/-- The Euclidean remainder is the only remainder below the capacity. -/
theorem reducePos_wrap_eq {raw count q : Int} {cap : Byte} (nonneg : 0 ≤ count) (below : count < cap.toNat)
    (division : raw = q * cap.toNat + count) : reducePos raw .wrap cap = count := by
  rw [reducePos_wrap, division, Int.mul_add_emod_self_right, Int.emod_eq_of_lt nonneg below]

/-! ### The answers of the commands -/

theorem exec_scale {count : Int} (s : State) (h : countLegal count = true) :
    exec (.scale count) s = .next (s.respond .ok (scaleMasks count.toNat).pack) := if_pos h

theorem exec_reduce (raw : Int) (mode : Mode) {cap : Byte} (s : State) (h : capLegal cap = true) :
    exec (.reduce raw mode cap) s = .next (s.respond .ok (BitVec.ofInt 32 (reducePos raw mode cap))) := if_pos h

theorem fourSlotMasks_render (cfg : Config) {count : Int} (h : countLegal count = true) :
    fourSlotMasks cfg (.render count) = some (scaleMasks count.toNat) := if_pos h

theorem fourSlotMasks_renderPos (cfg : Config) (raw : Int) (mode : Mode) {cap : Byte} (h : capLegal cap = true) :
    fourSlotMasks cfg (.renderPos raw mode cap) = some (scaleMasks (reducePos raw mode cap).toNat) := if_pos h

/-- REDUCE answers OK only on a legal capacity. -/
theorem capLegal_of_reduce_ok {raw : Int} {mode : Mode} {cap : Byte} {s u : State} {v : Word32}
    (run : exec (.reduce raw mode cap) s = .next u) (ok : u.responses = s.responses ++ [responseWord .ok v]) :
    capLegal cap = true ∧ v = BitVec.ofInt 32 (reducePos raw mode cap) := by
  cases legal : capLegal cap with
  | true =>
    cases run.symm.trans (exec_reduce raw mode s legal)
    have same : responseWord .ok (BitVec.ofInt 32 (reducePos raw mode cap)) = responseWord .ok v := by simpa using ok
    refine ⟨rfl, ?_⟩
    rw [← responseValue_responseWord .ok v, ← same, responseValue_responseWord]
  | false =>
    have raised : operandExn (.reduce raw mode cap) = some (.outOfRange (cap.setWidth 32)) := by simp [operandExn, legal]
    cases run.symm.trans (exec_of_operandExn s raised)
    have same : responseWord .outOfRange (cap.setWidth 32) = responseWord .ok v := by
      simpa [raise_eq_respond, Exn.status, Exn.info] using ok
    have status := congrArg responseStatus same
    rw [responseStatus_responseWord, responseStatus_responseWord] at status
    exact absurd (Status.code_injective status) (by decide)

/-- The command's name shows in the phase of a waiting block only. -/
theorem transact_name (cmd cmd' : Instr) (k : Nat) (ws : List Write) (s : State) :
    { transact cmd k ws s with phase := .idle } = { transact cmd' k ws s with phase := .idle } ∧
      ((transact cmd k ws s).phase = .idle ↔ (transact cmd' k ws s).phase = .idle) := by
  cases transact_cases cmd k ws s with
  | done rest hok hreset ht =>
    rw [ht, transact_all_ok cmd' k ws s rest hok hreset]
    exact ⟨rfl, Iff.rfl⟩
  | waits before after w hws hok hreset ht =>
    subst hws
    rw [ht, transact_waits cmd' k before after w s hok hreset]
    exact ⟨rfl, by simp⟩
  | cut before after w r rest resets hws hok hreset ht =>
    subst hws
    rw [ht, transact_cut cmd' k before after w r s rest resets hok hreset]
    exact ⟨rfl, Iff.rfl⟩
  | failed before after w rest hws hok hreset ht =>
    subst hws
    rw [ht, transact_first_failure cmd' k before after w s rest hok hreset]
    exact ⟨rfl, Iff.rfl⟩

end Sys2Proof.Machine

namespace Sys2Proof

open Machine

/-- Settles O25: byte `slot` of the packed masks is the mask of the slot. -/
theorem scaleAnswersPackedMasks : Obligations.ScaleAnswersPackedMasks := by
  intro count s hcount
  refine ⟨_, exec_scale s (countLegal_natCast hcount), fun slot hslot => ?_⟩
  rw [Int.toNat_natCast, Masks.pack_extractLsb' _ hslot, scaleMasks_get_eq hslot]

/-- Settles O27: the masks of a legal count are those of a four-slot command. -/
theorem renderWritesScaleMasks : Obligations.RenderWritesScaleMasks := by
  intro count s rest hcount answers noReset
  refine ⟨_, exec_fourSlot_ok (fourSlotMasks_render s.cfg (countLegal_natCast hcount)) answers noReset,
    fun slot hslot => ?_⟩
  rw [Int.toNat_natCast, scaleMasks_get_eq hslot]

/-- Settles O31: the remainder below the capacity is unique, and the clamp is its three branches. -/
theorem reduceAnswersCount : Obligations.ReduceAnswersCount := by
  intro raw count mode cap s atLeast atMost isCount
  have reduced : reducePos raw mode cap = count := by
    cases mode with
    | wrap =>
      obtain ⟨nonneg, below, q, division⟩ := isCount
      exact reducePos_wrap_eq nonneg below division
    | bounded =>
      rw [reducePos_bounded, clamp_eq_max_min _ (by omega)]
      simp only at isCount
      omega
  rw [exec_reduce raw mode s (capLegal_iff.2 ⟨atLeast, atMost⟩), reduced]
  rfl

/-- Settles O32: the masks of the reduced count are those of a four-slot command. -/
theorem renderPosWritesReducedMasks : Obligations.RenderPosWritesReducedMasks := by
  intro raw mode cap s rest atLeast atMost answers noReset
  exact exec_fourSlot_ok (fourSlotMasks_renderPos s.cfg raw mode (capLegal_iff.2 ⟨atLeast, atMost⟩)) answers noReset

/-- Settles O33: both commands run the same transactions, since VALUE holds the reduced count. -/
theorem renderPosIsReduceThenRender : Obligations.RenderPosIsReduceThenRender := by
  intro raw mode cap s u v run ok
  obtain ⟨legal, rfl⟩ := capLegal_of_reduce_ok run ok
  have count := countLegal_reducePos raw mode legal
  rw [toInt_ofInt_of_countLegal count]
  obtain ⟨same, idle⟩ := transact_name (.renderPos raw mode cap) (.render (reducePos raw mode cap)) 0
    (slotWrites s.cfg (scaleMasks (reducePos raw mode cap).toNat)) s
  exact ⟨_, _, exec_fourSlot (fourSlotMasks_renderPos s.cfg raw mode legal),
    exec_fourSlot (fourSlotMasks_render s.cfg count), same, idle⟩

end Sys2Proof
end

section
/-! SUPPORT. What a command and a step add to the log and leave unchanged (10_state.md R21–R29, 20_memory.md R40, R41). -/

namespace Sys2Proof.Machine

/-! ### The addresses of the listed transactions -/

theorem addr_of_mem_listedWrites_writeDigit {slot : Int} {mask : Word32} {s : State} {w : Write}
    (listed : w ∈ listedWrites (.writeDigit slot mask) s) :
    0 ≤ slot ∧ slot ≤ 3 ∧ w.addr = digitAddr s.cfg slot.toNat := by
  rw [listedWrites] at listed
  split at listed
  · rename_i legal
    obtain ⟨low, high⟩ := slotLegal_iff.1 legal
    obtain rfl := List.mem_singleton.1 listed
    exact ⟨low, high, rfl⟩
  · cases listed

theorem addr_of_mem_listedWrites_fourSlot {i : Instr} {m : Masks} {s : State} {w : Write}
    (masks : fourSlotMasks s.cfg i = some m) (listed : w ∈ listedWrites i s) :
    ∃ k, k ≤ 3 ∧ w.addr = digitAddr s.cfg k := by
  rw [(fourSlot_listed masks).2] at listed
  exact addr_of_mem_slotWrites listed

theorem listedWrites_control {i : Instr} (s : State) (control : isControl i = true) :
    listedWrites i s = [controlWrite s] := by
  cases i with
  | setBrightness | powerOn | powerOff => rfl
  | _ => cases control

/-- A command that is no control command, no four-slot command and no WRITE_DIGIT on a legal slot lists nothing. -/
theorem listedWrites_eq_nil {i : Instr} {s : State} (digit : isControl i = false) (masks : fourSlotMasks s.cfg i = none)
    (slots : ∀ slot mask, i = .writeDigit slot mask → slot < 0 ∨ 3 < slot) :
    listedWrites i (registerWrite i s) = [] := by
  cases i with
  | lookup | scale | reduce => rfl
  | setBrightness | powerOn | powerOff => cases digit
  | clear | showText | showSegments => cases masks
  | writeDigit slot mask =>
    have illegal := slotLegal_eq_false_iff.2 (slots slot mask rfl)
    simp [listedWrites, illegal]
  | render | renderPos =>
    simp only [fourSlotMasks, ite_eq_right_iff, reduceCtorEq, imp_false] at masks
    simp [listedWrites, masks]

/-! ### A command's run -/

section exec
variable {i : Instr} {s t : State} (run : exec i s = .next t)
include run

theorem exec_cfg : t.cfg = s.cfg := by
  obtain ⟨st, v, -, rfl⟩ | ends := exec_runs run
  · rfl
  · rw [ends.cfg_eq, registerWrite_cfg]

theorem exec_commands : t.commands = s.commands := by
  obtain ⟨st, v, -, rfl⟩ | ends := exec_runs run
  · rfl
  · rw [ends.commands_eq, registerWrite_commands]

/-- It adds transactions, then one response or one reset, or it waits for one transaction more. -/
theorem exec_log_adds :
    ∃ (ts : List Transaction) (last : List Event), t.log = s.log ++ ts.map Event.transaction ++ last ∧
      ts.length ≤ 4 ∧
      ((∃ r, last = [.response r] ∧ t.phase = .idle) ∨ (last = [.reset] ∧ t.phase = .idle) ∨
        (last = [] ∧ t.phase = .executing i (ts.length + 1) ∧ ts.length ≤ 3 ∧ t.answers = [])) := by
  obtain ⟨st, v, -, rfl⟩ | ends := exec_runs run
  · exact ⟨[], [.response (responseWord st v)], by simp, by simp, .inl ⟨_, rfl, rfl⟩⟩
  · obtain ⟨ts, last, log, length, how⟩ := ends.log_adds
    have atMost := listedWrites_length_le i (registerWrite i s)
    refine ⟨ts, last, by rw [log, registerWrite_log], by omega, how.imp_right (.imp_right ?_)⟩
    rintro ⟨nothing, phase, left, silent⟩
    exact ⟨nothing, by rw [phase, Nat.zero_add], by omega, silent⟩

/-- Each transaction it adds goes to the address of a listed one. -/
theorem exec_trace_adds :
    ∃ ts : List Transaction, t.trace = s.trace ++ ts ∧
      ∀ x ∈ ts, ∃ w ∈ listedWrites i (registerWrite i s), x.addr = w.addr := by
  obtain ⟨st, v, -, rfl⟩ | ends := exec_runs run
  · exact ⟨[], by simp, fun _ mem => absurd mem List.not_mem_nil⟩
  · obtain ⟨ts, trace, listed⟩ := ends.trace_adds
    refine ⟨ts, by rw [trace, registerWrite_trace], fun x mem => ?_⟩
    obtain ⟨w, mem_w, same⟩ := List.mem_map.1 (listed.subset (List.mem_map_of_mem mem))
    exact ⟨w, mem_w, (Prod.mk.inj same).1.symm⟩

/-- Only a reset and the register write change a register. -/
theorem exec_registers :
    (∃ new, t.log = s.log ++ new ∧ Event.reset ∈ new) ∨
      t.pwr = (registerWrite i s).pwr ∧ t.bri = (registerWrite i s).bri := by
  obtain ⟨st, v, written, rfl⟩ | ends := exec_runs run
  · rw [written]
    exact .inr ⟨rfl, rfl⟩
  · simpa using ends.registers_or_reset

end exec

/-! ### The same command from another state -/

/-- The same answers and resets give the same new events. -/
theorem transact_new_log (cmd : Instr) (k : Nat) (ws : List Write) {s s' : State} (answers : s.answers = s'.answers)
    (resets : s.resets = s'.resets) :
    ∃ new, (transact cmd k ws s).log = s.log ++ new ∧ (transact cmd k ws s').log = s'.log ++ new := by
  cases transact_cases cmd k ws s with
  | done rest hok hreset ht =>
    rw [ht, transact_all_ok cmd k ws s' rest (answers ▸ hok) (resets ▸ hreset)]
    exact ⟨ws.map (·.event .ok) ++ [.response (responseWord .ok 0)], by simp, by simp⟩
  | waits before after w hws hok hreset ht =>
    subst hws
    rw [ht, transact_waits cmd k before after w s' (answers ▸ hok) (resets ▸ hreset)]
    exact ⟨before.map (·.event .ok), by simp, by simp⟩
  | cut before after w r rest rs hws hok hreset ht =>
    subst hws
    rw [ht, transact_cut cmd k before after w r s' rest rs (answers ▸ hok) (resets ▸ hreset)]
    exact ⟨before.map (·.event .ok) ++ [w.event r, .reset], by simp, by simp⟩
  | failed before after w rest hws hok hreset ht =>
    subst hws
    rw [ht, transact_first_failure cmd k before after w s' rest (answers ▸ hok) (resets ▸ hreset)]
    exact ⟨before.map (·.event .ok) ++
      [w.event .fail, .response (responseWord .busWriteFailure (Exn.busWriteFailure w.addr w.index).info)],
      by simp [Exn.status], by simp [Exn.status]⟩

/-- A command that is no control command means the same in every state with the same parameters. -/
theorem exec_uniform {i : Instr} (digit : isControl i = false) (cfg : Config) :
    (∃ st v, ∀ s, s.cfg = cfg → exec i s = .next (s.respond st v)) ∨
      ∃ ws, ∀ s, s.cfg = cfg → exec i s = .next (transact i 0 ws s) := by
  cases raised : operandExn i with
  | some e => exact .inl ⟨e.status, e.info, fun s _ => exec_of_operandExn s raised⟩
  | none =>
    cases masks : fourSlotMasks cfg i with
    | some m =>
      refine .inr ⟨slotWrites cfg m, fun s same => ?_⟩
      subst same
      exact exec_fourSlot masks
    | none =>
      cases i with
      | setBrightness | powerOn | powerOff => cases digit
      | clear | showText | showSegments => cases masks
      | render | renderPos => simp_all [operandExn, fourSlotMasks]
      | lookup sym =>
        refine .inl ⟨.ok, (seg cfg sym).setWidth 32, fun s same => ?_⟩
        rw [← same]
        exact exec_lookup sym s
      | scale count =>
        have legal : countLegal count = true := by simpa [operandExn] using raised
        exact .inl ⟨.ok, _, fun s _ => exec_scale s legal⟩
      | reduce raw mode cap =>
        have legal : capLegal cap = true := by simpa [operandExn] using raised
        exact .inl ⟨.ok, _, fun s _ => exec_reduce raw mode s legal⟩
      | writeDigit slot mask =>
        have legal : slotLegal slot = true := by simpa [operandExn] using raised
        refine .inr ⟨[⟨digitAddr cfg slot.toNat, mask.extractLsb' 0 8, 0⟩], fun s same => ?_⟩
        rw [← same]
        exact exec_writeDigit_of_legal mask s legal

/-! ### A step -/

theorem exec_answers (i : Instr) (s : State) : ∃ t, exec i s = .next t := by
  obtain ⟨_, _, -, -, run⟩ | ⟨-, run⟩ := exec_cases i s
  · exact ⟨_, run⟩
  · exact ⟨_, run⟩

theorem continueFrom_answers (i : Instr) (k : Nat) (s : State) : ∃ t, continueFrom i k s = .next t := by
  obtain ⟨_, _, -, -, run⟩ | ⟨-, run⟩ := continueFrom_cases i k s
  · exact ⟨_, run⟩
  · exact ⟨_, run⟩

theorem step_of_fetch_runs {s t : State} {i : Instr} (idle : s.phase = .idle) (fetched : fetch s = .runs i t) :
    step s = exec i t := by
  rw [step, idle]
  simp only [fetched]

section continueFrom
variable {i : Instr} {k : Nat} {s t : State} (run : continueFrom i k s = .next t)
include run

theorem continueFrom_cfg : t.cfg = s.cfg := by
  obtain ⟨st, v, rfl⟩ | ends := continueFrom_runs run
  · rfl
  · exact ends.cfg_eq

theorem continueFrom_commands : t.commands = s.commands := by
  obtain ⟨st, v, rfl⟩ | ends := continueFrom_runs run
  · rfl
  · exact ends.commands_eq

theorem continueFrom_log_grows : ∃ new, t.log = s.log ++ new := by
  obtain ⟨st, v, rfl⟩ | ends := continueFrom_runs run
  · exact ⟨_, respond_log ..⟩
  · obtain ⟨ts, last, log, -⟩ := ends.log_adds
    exact ⟨_, log.trans (List.append_assoc ..)⟩

theorem continueFrom_registers :
    (∃ new, t.log = s.log ++ new ∧ Event.reset ∈ new) ∨ t.pwr = s.pwr ∧ t.bri = s.bri := by
  obtain ⟨st, v, rfl⟩ | ends := continueFrom_runs run
  · exact .inr ⟨rfl, rfl⟩
  · exact ends.registers_or_reset

end continueFrom

section step
variable {s t : State} (run : step s = .next t)
include run

theorem step_cfg : t.cfg = s.cfg := by
  cases step_cases run with
  | reset hphase hdue ht => rw [ht, takeReset_cfg]
  | waits hphase hdue hcmd ht => rw [ht]
  | taken w rest hphase hdue hcmd hdue₂ ht => rw [ht]; rfl
  | illegal w rest r hphase hdue hcmd hdue₂ hdec ht => rw [ht]; rfl
  | runs w rest i hphase hdue hcmd hdue₂ hdec hexec => exact (exec_cfg hexec).trans rfl
  | resumes cmd k hphase hresume => exact continueFrom_cfg hresume

/-- A step of the Idle block takes off the port at most its first word. -/
theorem step_commands : t.commands = s.commands ∨ t.commands = s.commands.tail := by
  cases step_cases run with
  | reset hphase hdue ht => exact .inl (by rw [ht, takeReset_commands])
  | waits hphase hdue hcmd ht => exact .inl (by rw [ht])
  | taken w rest hphase hdue hcmd hdue₂ ht => exact .inr (by rw [ht, hcmd]; rfl)
  | illegal w rest r hphase hdue hcmd hdue₂ hdec ht => exact .inr (by rw [ht, hcmd]; rfl)
  | runs w rest i hphase hdue hcmd hdue₂ hdec hexec => exact .inr (by rw [exec_commands hexec, hcmd]; rfl)
  | resumes cmd k hphase hresume => exact .inl (continueFrom_commands hresume)

theorem step_log_grows : ∃ new, t.log = s.log ++ new := by
  cases step_cases run with
  | reset hphase hdue ht => exact ⟨_, by rw [ht, takeReset_log]⟩
  | waits hphase hdue hcmd ht => exact ⟨[], by rw [ht, List.append_nil]⟩
  | taken w rest hphase hdue hcmd hdue₂ ht => exact ⟨_, by rw [ht, takeReset_log]; rfl⟩
  | illegal w rest r hphase hdue hcmd hdue₂ hdec ht => exact ⟨_, by rw [ht, raise_log]; rfl⟩
  | runs w rest i hphase hdue hcmd hdue₂ hdec hexec =>
    obtain ⟨ts, last, log, -⟩ := exec_log_adds hexec
    exact ⟨_, log.trans (List.append_assoc ..)⟩
  | resumes cmd k hphase hresume => exact continueFrom_log_grows hresume

/-- Only a reset and the register write of an accepted command change a register. -/
theorem step_registers :
    (∃ new, t.log = s.log ++ new ∧ Event.reset ∈ new) ∨ (t.pwr = s.pwr ∧ t.bri = s.bri) ∨
      s.phase = .idle ∧ ∃ w rest i, s.commands = w :: rest ∧ decode w = .ok i ∧
        t.pwr = (registerWrite i s).pwr ∧ t.bri = (registerWrite i s).bri := by
  cases step_cases run with
  | reset hphase hdue ht => exact .inl ⟨[.reset], by rw [ht, takeReset_log], by simp⟩
  | waits hphase hdue hcmd ht => exact .inr (.inl (by simp [ht]))
  | taken w rest hphase hdue hcmd hdue₂ ht => exact .inl ⟨[.reset], by rw [ht, takeReset_log]; rfl, by simp⟩
  | illegal w rest r hphase hdue hcmd hdue₂ hdec ht => exact .inr (.inl (by simp [ht]))
  | runs w rest i hphase hdue hcmd hdue₂ hdec hexec =>
    refine (exec_registers hexec).imp_right fun registers => .inr ⟨hphase, w, rest, i, hcmd, hdec, ?_⟩
    cases i <;> exact registers
  | resumes cmd k hphase hresume => exact (continueFrom_registers hresume).imp_right .inl

end step

end Sys2Proof.Machine

namespace Sys2Proof

open Machine

/-- Settles O37: a command's run is a response or ends as its sequence does, from transaction 0. -/
theorem commandAddsTransactionsThenOneResponse : Obligations.CommandAddsTransactionsThenOneResponse :=
  fun _ _ _ run => exec_log_adds run

/-- Settles O39: what a run adds is listed, and the list of each command has its own addresses. -/
theorem commandsWriteOnlyTheirAddresses : Obligations.CommandsWriteOnlyTheirAddresses := by
  intro i s t run
  obtain ⟨ts, trace, listed⟩ := exec_trace_adds run
  refine ⟨ts, trace, fun x mem => ?_⟩
  obtain ⟨w, mem_w, addr⟩ := listed x mem
  rw [addr]
  cases i with
  | lookup | scale | reduce => cases mem_w
  | setBrightness | powerOn | powerOff =>
    rw [listedWrites_control _ rfl, List.mem_singleton] at mem_w
    rw [mem_w]
    rfl
  | writeDigit slot mask => exact addr_of_mem_listedWrites_writeDigit mem_w
  | clear | showText | showSegments => exact addr_of_mem_listedWrites_fourSlot rfl mem_w
  | render count =>
    cases legal : countLegal count with
    | true => exact addr_of_mem_listedWrites_fourSlot (fourSlotMasks_render s.cfg legal) mem_w
    | false => simp [listedWrites, legal] at mem_w
  | renderPos raw mode cap =>
    cases legal : capLegal cap with
    | true => exact addr_of_mem_listedWrites_fourSlot (fourSlotMasks_renderPos s.cfg raw mode legal) mem_w
    | false => simp [listedWrites, legal] at mem_w

/-- Settles O40: the parameters fix the response or the transactions, and the inputs fix how those end. -/
theorem digitCommandsHaveNoHiddenState : Obligations.DigitCommandsHaveNoHiddenState := by
  intro i s s' t t' digit cfg answers resets run run'
  obtain ⟨st, v, means⟩ | ⟨ws, means⟩ := exec_uniform digit s.cfg
  · cases run.symm.trans (means s rfl)
    cases run'.symm.trans (means s' cfg.symm)
    exact ⟨_, respond_log .., respond_log ..⟩
  · cases run.symm.trans (means s rfl)
    cases run'.symm.trans (means s' cfg.symm)
    exact transact_new_log i 0 ws answers resets

/-- Settles O42: such a command lists nothing, so it only answers. -/
theorem frameOfCommandsWithoutTransaction : Obligations.FrameOfCommandsWithoutTransaction := by
  intro i s t run digit masks slots
  obtain ⟨st, v, -, -, answers⟩ | ⟨lists, -⟩ := exec_cases i s
  · cases run.symm.trans answers
    exact ⟨rfl, rfl, rfl, rfl, rfl, rfl, respond_trace .., fun _ => rfl⟩
  · exact absurd (listedWrites_eq_nil digit masks slots) lists

/-- Settles O43: the one transaction goes to CTRL_ADDR, and the register write is the command's own. -/
theorem frameOfControlCommands : Obligations.FrameOfControlCommands := by
  intro i s t run control
  cases run.symm.trans (exec_control s control)
  have ends := transact_cases i 0 [controlWrite (registerWrite i s)] (registerWrite i s)
  refine ⟨ends.cfg_eq.trans (registerWrite_cfg ..), ends.commands_eq.trans (registerWrite_commands ..),
    fun a other => ?_, fun noReset => ?_⟩
  · have kept := ends.imageAt_other (a := a) (by simpa [controlWrite] using other)
    simpa [State.imageAt] using kept
  · obtain ⟨pwr, bri⟩ := ends.registers_eq (by simpa using noReset)
    rw [pwr, bri]
    cases i with
    | setBrightness val => exact ⟨fun no => absurd rfl (no val), fun _ => rfl⟩
    | powerOn | powerOff => exact ⟨fun _ => rfl, fun ⟨_, h⟩ => by cases h⟩
    | _ => cases control

/-- Settles O44: the one transaction goes to the slot's address; an illegal slot only answers. -/
theorem frameOfWriteDigit : Obligations.FrameOfWriteDigit := by
  intro slot mask s t run
  cases legal : slotLegal slot with
  | false =>
    cases run.symm.trans (exec_writeDigit_of_illegal mask s legal)
    exact ⟨rfl, rfl, fun _ _ => rfl, fun _ => ⟨rfl, rfl⟩⟩
  | true =>
    cases run.symm.trans (exec_writeDigit_of_legal mask s legal)
    have ends := transact_cases (.writeDigit slot mask) 0 [⟨digitAddr s.cfg slot.toNat, mask.extractLsb' 0 8, 0⟩] s
    exact ⟨ends.cfg_eq, ends.commands_eq, fun a other => ends.imageAt_other (by simpa using other), ends.registers_eq⟩

/-- Settles O45: the four transactions go to the digit addresses. -/
theorem frameOfFourSlotCommands : Obligations.FrameOfFourSlotCommands := by
  intro i s t m run masks
  cases run.symm.trans (exec_fourSlot masks)
  have ends := transact_cases i 0 (slotWrites s.cfg m) s
  refine ⟨ends.cfg_eq, ends.commands_eq, fun a other => ends.imageAt_other fun w hw => ?_, ends.registers_eq⟩
  obtain ⟨k, hk, addr⟩ := addr_of_mem_slotWrites hw
  rw [addr]
  exact other k hk

/-- Settles O51: only the acceptance of a word touches the port. -/
theorem wordsAreHeldInOrder : Obligations.WordsAreHeldInOrder :=
  ⟨fun _ _ _ _ phase run => continueFrom_commands ((step_executing phase).symm.trans run), fun _ _ => step_commands⟩

/-- Settles O52: of the register writes only those of the control commands change a register. -/
theorem onlyControlCommandsWriteRegisters : Obligations.OnlyControlCommandsWriteRegisters := by
  intro s t run
  refine ⟨step_cfg run, ?_⟩
  obtain reset | ⟨pwr, bri⟩ | ⟨idle, w, rest, i, held, decoded, pwr, bri⟩ := step_registers run
  · exact ⟨fun _ => .inl reset, fun _ => .inl reset⟩
  · exact ⟨fun changed => absurd pwr changed, fun changed => absurd bri changed⟩
  · refine ⟨fun changed => .inr ⟨idle, w, rest, held, ?_⟩, fun changed => .inr ⟨idle, w, rest, ?_⟩⟩
    · cases i with
      | powerOn => exact .inl ⟨decoded, pwr⟩
      | powerOff => exact .inr ⟨decoded, pwr⟩
      | _ => exact absurd pwr changed
    · cases i with
      | setBrightness val => exact ⟨val, held, decoded⟩
      | _ => exact absurd bri changed

/-- Settles O53: the trace and the responses are read off a log that only grows. -/
theorem logOnlyGrows : Obligations.LogOnlyGrows := by
  intro s t run
  obtain ⟨new, log⟩ := step_log_grows run
  exact ⟨⟨new, log⟩, ⟨_, (trace_of_log log).symm⟩, ⟨_, (responses_of_log log).symm⟩⟩

/-- Settles O54: every meaning answers a next state, from its start and going on. -/
theorem stepNeverStops : Obligations.StepNeverStops := by
  intro s
  cases phase : s.phase with
  | executing cmd k =>
    rw [step_executing phase]
    exact continueFrom_answers cmd (k - 1) s
  | idle =>
    cases fetched : fetch s with
    | done t => exact ⟨t, step_of_fetch_done phase fetched⟩
    | runs i t =>
      rw [step_of_fetch_runs phase fetched]
      exact exec_answers i t

end Sys2Proof
end

section
/-! SUPPORT. Accepting the word on the port, and waiting for the transport (70_reset_and_hazards.md R233, R234, R240). -/

namespace Sys2Proof.Machine

/-! ### Accepting a word -/

/-- The Idle block after it has taken the held word past its two boundaries (log 5, log 6). -/
def State.accepted (s : State) (rest : List CmdWord) : State :=
  { s with commands := rest, resets := resetsAfter 2 s.resets }

section fetch
variable {s : State} {w : CmdWord} {rest : List CmdWord}

theorem passBoundary_passBoundary_eq_accepted :
    ({ s.passBoundary with commands := rest } : State).passBoundary = s.accepted rest := by
  simp only [State.accepted, ← resetsAfter_resetsAfter 1 1]
  rfl

theorem fetch_of_held (held : s.commands = w :: rest) (noReset : noResetWithin 1 s.resets = true) :
    fetch s = acceptWord w rest s.passBoundary := by
  have notDue : s.resetDue = false := resetDue_false_iff.2 noReset
  simp only [fetch, notDue, held, Bool.false_eq_true, if_false]

section accept
variable (noReset : noResetWithin 2 s.resets = true)
include noReset

theorem not_resetDue_of_accepting : ({ s.passBoundary with commands := rest } : State).resetDue = false :=
  resetDue_false_iff.2 (noResetWithin_resetsAfter (n := 1) (m := 1) noReset)

theorem fetch_of_illegal (held : s.commands = w :: rest) {r : Reject} (illegal : decode w = .error r) :
    fetch s = .done ((s.accepted rest).raise (.illegalCommand (opcodeOf w))) := by
  rw [fetch_of_held held (noResetWithin_of_le (by decide) noReset), acceptWord]
  simp only [not_resetDue_of_accepting noReset, illegal, passBoundary_passBoundary_eq_accepted, Bool.false_eq_true,
    if_false]

theorem fetch_of_legal (held : s.commands = w :: rest) {i : Instr} (legal : decode w = .ok i) :
    fetch s = .runs i { s.accepted rest with phase := .executing i 0 } := by
  rw [fetch_of_held held (noResetWithin_of_le (by decide) noReset), acceptWord]
  simp only [not_resetDue_of_accepting noReset, legal, passBoundary_passBoundary_eq_accepted, Bool.false_eq_true,
    if_false]

end accept

theorem fetch_of_none (none : s.commands = []) (noReset : noResetWithin 1 s.resets = true) : fetch s = .done s := by
  have notDue : s.resetDue = false := resetDue_false_iff.2 noReset
  simp only [fetch, notDue, none, Bool.false_eq_true, if_false]

end fetch

/-! ### Waiting for the transport -/

/-- Answers that come later change nothing of what the earlier ones did. -/
theorem okWrites_append_answers {s : State} {ws : List Write} (later : List BusResult)
    (given : s.answers.length = ws.length) :
    okWrites { s with answers := s.answers ++ later } ws = { okWrites s ws with answers := later } := by
  rw [okWrites_eq, okWrites_eq]
  simp [← given]

/-- A sequence that waited ends, once the answers come, as it would have with all of them there at once. -/
theorem transact_resumed (cmd : Instr) {before : List Write} (left : List Write) {s : State} (p : Phase)
    (later : List BusResult) (answers : s.answers = List.replicate before.length BusResult.ok)
    (noReset : noResetWithin before.length s.resets = true) :
    transact cmd before.length left { okWrites s before with phase := p, answers := later } =
      transact cmd 0 (before ++ left) { s with answers := s.answers ++ later } := by
  rw [transact_after_ok cmd 0 before left { s with answers := s.answers ++ later } later (by rw [answers])
    noReset, Nat.zero_add, okWrites_append_answers later (by rw [answers, List.length_replicate])]
  exact transact_phase cmd before.length left { okWrites s before with answers := later } p

theorem registerWrite_append_answers (i : Instr) (s : State) (later : List BusResult) :
    registerWrite i { s with answers := s.answers ++ later } =
      { registerWrite i s with answers := (registerWrite i s).answers ++ later } := by
  cases i <;> rfl

/-- A command that lists transactions runs them after its register write. -/
theorem exec_of_listed {i : Instr} {s : State} (lists : listedWrites i (registerWrite i s) ≠ []) :
    exec i s = .next (transact i 0 (listedWrites i (registerWrite i s)) (registerWrite i s)) := by
  obtain ⟨_, _, nothing, written, -⟩ | ⟨-, run⟩ := exec_cases i s
  · exact absurd (written.symm ▸ nothing) lists
  · exact run

/-- A command that lists transactions goes on with those that are left. -/
theorem continueFrom_of_listed {i : Instr} {s : State} (k : Nat) (lists : listedWrites i s ≠ []) :
    continueFrom i k s = .next (transact i k ((listedWrites i s).drop k) s) := by
  obtain ⟨_, _, nothing, -, -⟩ | ⟨-, run⟩ := continueFrom_cases i k s
  · exact absurd nothing lists
  · exact run

/-- A command that waits in a transaction had the transactions before it ok, with no reset. -/
theorem exec_waits {i cmd : Instr} {s t : State} {k : Nat} (run : exec i s = .next t) (waits : t.phase = .executing cmd k) :
    ∃ before after w, cmd = i ∧ k = before.length + 1 ∧ listedWrites i (registerWrite i s) = before ++ w :: after ∧
      s.answers = List.replicate before.length BusResult.ok ∧ noResetWithin before.length s.resets = true ∧
      t = { okWrites (registerWrite i s) before with phase := .executing i k } := by
  obtain ⟨st, v, -, rfl⟩ | ends := exec_runs run
  · cases waits
  · cases ends with
    | done rest hok hreset ht => subst ht; cases waits
    | cut before after w r rest resets hws hok hreset ht => subst ht; cases waits
    | failed before after w rest hws hok hreset ht => subst ht; cases waits
    | waits before after w hws hok hreset ht =>
      subst ht
      obtain ⟨rfl, rfl⟩ := Phase.executing.inj waits
      rw [registerWrite_answers] at hok
      rw [registerWrite_resets] at hreset
      exact ⟨before, after, w, rfl, by omega, hws, hok, hreset, by rw [Nat.zero_add]⟩

/-- R240: going on when the answers come is the command with all answers there at once. -/
theorem step_resumed {i cmd : Instr} {s t : State} {k : Nat} (run : exec i s = .next t)
    (waits : t.phase = .executing cmd k) (later : List BusResult) :
    step { t with answers := later } = exec i { s with answers := s.answers ++ later } := by
  obtain ⟨before, after, w, rfl, rfl, listed, answers, noReset, rfl⟩ := exec_waits run waits
  rw [← registerWrite_answers cmd] at answers
  rw [← registerWrite_resets cmd] at noReset
  set start := registerWrite cmd s
  set waiting : State := { okWrites start before with phase := .executing cmd (before.length + 1), answers := later }
  have lists : ∀ u : State, u.cfg = start.cfg → u.pwr = start.pwr → u.bri = start.bri →
      listedWrites cmd u = before ++ w :: after := fun u cfg pwr bri => (listedWrites_congr cmd cfg pwr bri).trans listed
  have listed_waiting := lists waiting (okWrites_cfg ..) (okWrites_pwr ..) (okWrites_bri ..)
  have listed_atOnce := lists { start with answers := start.answers ++ later } rfl rfl rfl
  calc step waiting
    _ = continueFrom cmd before.length waiting := step_executing (s := waiting) (k := before.length + 1) rfl
    _ = .next (transact cmd before.length (w :: after) waiting) := by
      rw [continueFrom_of_listed _ (by simp [listed_waiting]), listed_waiting, List.drop_left]
    _ = .next (transact cmd 0 (before ++ w :: after) { start with answers := start.answers ++ later }) :=
      congrArg _ (transact_resumed cmd (w :: after) _ later answers noReset)
    _ = exec cmd { s with answers := s.answers ++ later } := by
      rw [exec_of_listed (by rw [registerWrite_append_answers, listed_atOnce]; simp), registerWrite_append_answers,
        listed_atOnce]

end Sys2Proof.Machine

namespace Sys2Proof

open Machine

/-- Settles O46: an illegal word is one the decoder rejects, and its exception is all that happens. -/
theorem illegalWordIsAnswered : Obligations.IllegalWordIsAnswered := by
  intro s w rest illegal idle held noReset
  obtain ⟨r, rejected⟩ := (illegalWordsExactly w).1 illegal
  rw [step_of_fetch_done idle (fetch_of_illegal noReset held rejected), idle]
  rfl

/-- Settles O47: both boundaries pass, and the word's command runs. -/
theorem stepRunsDecodedCommand : Obligations.StepRunsDecodedCommand := by
  intro s w rest i idle held decoded noReset
  exact step_of_fetch_runs idle (fetch_of_legal noReset held decoded)

/-- Settles O48: no reset is due and no word is held. -/
theorem idleBlockWaits : Obligations.IdleBlockWaits := by
  intro s idle none noReset
  exact step_of_fetch_done idle (fetch_of_none none noReset)

/-- Settles O55: the invariant gives a transaction that waits, and without an answer it waits on. -/
theorem silentTransportHangs : Obligations.SilentTransportHangs := by
  intro s cmd k inv phase silent
  have legal := inv.phase_legal
  simp only [phaseLegal, phase] at legal
  obtain ⟨-, -, issued, listed, -⟩ := legal
  obtain ⟨k, rfl⟩ := Nat.exists_eq_add_of_le' issued
  obtain ⟨w, after, left⟩ : ∃ w after, (listedWrites cmd s).drop k = w :: after :=
    ⟨_, _, List.drop_eq_getElem_cons listed⟩
  have lists : listedWrites cmd s ≠ [] := fun h => by simp [h] at left
  rw [step_executing phase, Nat.add_sub_cancel, continueFrom_of_listed k lists, left]
  have waits := transact_waits cmd k [] after w s silent (noResetWithin_zero _)
  rw [List.nil_append] at waits
  rw [waits, List.length_nil, Nat.add_zero, ← phase]
  rfl

/-- Settles O56: from the answered transactions on, both runs are the same sequence from the same state. -/
theorem transportDelayIsInvisible : Obligations.TransportDelayIsInvisible :=
  fun _ _ _ _ _ _ later run waits => step_resumed run waits later

end Sys2Proof
end

section
/-! SUPPORT. What each form of a line takes (30_encoding.md R73). -/

namespace Sys2Proof.Machine

/-! ### Operands -/

theorem inS32_iff {v : Int} : inS32 v = true ↔ -2147483648 ≤ v ∧ v ≤ 2147483647 := by
  simp only [inS32, Bool.and_eq_true, decide_eq_true_eq]
  omega

theorem s32Operand_eq (v : Int) : s32Operand v = if -2147483648 ≤ v ∧ v ≤ 2147483647 then some v else none := by
  simp only [s32Operand, inS32_iff]

theorem inS32_of_s32Operand {v r : Int} (taken : s32Operand v = some r) : inS32 r = true := by
  obtain ⟨legal, same⟩ := Option.ite_none_right_eq_some.1 taken
  exact Option.some.inj same ▸ legal

theorem maskOperand_eq (v : Int) :
    maskOperand v = if -2147483648 ≤ v ∧ v ≤ 4294967295 then some (BitVec.ofInt 32 v) else none := rfl

theorem signedOperand_num (make : Int → Instr) (v : Int) :
    signedOperand make [.num v] = if -2147483648 ≤ v ∧ v ≤ 2147483647 then some (make v) else none := by
  rw [signedOperand, s32Operand_eq]
  split <;> rfl

theorem symbolOperand_num (v : Int) :
    symbolOperand [.num v] = if 0 ≤ v ∧ v ≤ 255 then some (.lookup (BitVec.ofInt 8 v)) else none := by
  rw [symbolOperand, byteOperand]
  split <;> rfl

theorem noOperand_eq (i : Instr) (args : List AsmToken) : noOperand i args = if args = [] then some i else none := by
  cases args <;> rfl

theorem digitOperands_num (slot mask : Int) :
    digitOperands [.num slot, .comma, .num mask] =
      if (-2147483648 ≤ slot ∧ slot ≤ 2147483647) ∧ -2147483648 ≤ mask ∧ mask ≤ 4294967295 then
        some (.writeDigit slot (BitVec.ofInt 32 mask)) else none := by
  rw [digitOperands, s32Operand_eq, maskOperand_eq]
  by_cases hslot : -2147483648 ≤ slot ∧ slot ≤ 2147483647 <;>
    by_cases hmask : -2147483648 ≤ mask ∧ mask ≤ 4294967295 <;> simp only [hslot, hmask] <;> rfl

/-- The names of the modes. -/
theorem modeOperand_of_name {letters : List Char} {mode : Mode}
    (names : (letters = "WRAP".toList ∧ mode = .wrap) ∨ (letters = "BOUNDED".toList ∧ mode = .bounded)) :
    modeOperand letters = some mode := by
  obtain ⟨rfl, rfl⟩ | ⟨rfl, rfl⟩ := names
  · exact if_pos rfl
  · exact (if_neg (by decide)).trans (if_pos rfl)

theorem positionOperands_num (make : Int → Mode → Byte → Instr) {letters : List Char} {mode : Mode} (raw cap : Int)
    (names : modeOperand letters = some mode) :
    positionOperands make [.num raw, .comma, .name letters, .comma, .num cap] =
      if (-2147483648 ≤ raw ∧ raw ≤ 2147483647) ∧ 0 ≤ cap ∧ cap ≤ 255 then
        some (make raw mode (BitVec.ofInt 8 cap)) else none := by
  rw [positionOperands, s32Operand_eq, names, byteOperand]
  by_cases hraw : -2147483648 ≤ raw ∧ raw ≤ 2147483647 <;>
    by_cases hcap : 0 ≤ cap ∧ cap ≤ 255 <;> simp only [hraw, hcap] <;> rfl

/-! ### Forms -/

/-- What reads the operands after each mnemonic, in the order of the mnemonics. -/
def forms : List (List AsmToken → Option Instr) :=
  [symbolOperand, signedOperand .setBrightness, noOperand .powerOn, noOperand .powerOff, noOperand .clear, digitOperands,
    fun args => ((textOperand args).bind elementsOperand).map .showText,
    fun args => ((listOperand args).bind elementsOperand).map .showSegments,
    signedOperand .scale, signedOperand .render, positionOperands .reduce, positionOperands .renderPos]

/-- A line that begins with a mnemonic is read by its form. -/
theorem assembleTokens_form (args : List AsmToken) (n : Fin 12) :
    assembleTokens (.name (mnemonics[n]'n.isLt) :: args) = (forms[n]'n.isLt) args := by
  have opcode : mnemonicOpcode (mnemonics[n]'n.isLt) = n + 1 := opcode_of_mnemonic n.isLt
  simp only [assembleTokens, opcode]
  fin_cases n <;> rfl

/-- A list in brackets is taken where it fits the element fields. -/
theorem elementsOperand_map_eq {items : List Int} {elems : Elements} (make : Elements → Instr)
    (fields : elems =
      { len := BitVec.ofNat 8 items.length
        e0 := BitVec.ofInt 8 (items.getD 0 0), e1 := BitVec.ofInt 8 (items.getD 1 0)
        e2 := BitVec.ofInt 8 (items.getD 2 0), e3 := BitVec.ofInt 8 (items.getD 3 0) }) :
    (elementsOperand items).map make =
      if (∀ v ∈ items, 0 ≤ v ∧ v ≤ 255) ∧ items.length ≤ 255 then some (make elems) else none := by
  rw [elementsOperand_eq, ← fields]
  split <;> rfl

/-! ### What the forms make -/

theorem wf_of_symbolOperand {args : List AsmToken} {i : Instr} (taken : symbolOperand args = some i) : i.wf = true := by
  unfold symbolOperand at taken
  split at taken
  · obtain ⟨sym, -, rfl⟩ := Option.map_eq_some_iff.1 taken
    rfl
  · cases taken

theorem wf_of_signedOperand {make : Int → Instr} {args : List AsmToken} {i : Instr}
    (taken : signedOperand make args = some i) (fits : ∀ v, inS32 v = true → (make v).wf = true) : i.wf = true := by
  unfold signedOperand at taken
  split at taken
  · obtain ⟨v, operand, rfl⟩ := Option.map_eq_some_iff.1 taken
    exact fits v (inS32_of_s32Operand operand)
  · cases taken

theorem wf_of_digitOperands {args : List AsmToken} {i : Instr} (taken : digitOperands args = some i) : i.wf = true := by
  unfold digitOperands at taken
  split at taken
  · split at taken
    · rename_i slot _ operand _
      cases taken
      exact inS32_of_s32Operand operand
    · cases taken
  · cases taken

theorem wf_of_positionOperands {make : Int → Mode → Byte → Instr} {args : List AsmToken} {i : Instr}
    (taken : positionOperands make args = some i)
    (fits : ∀ raw mode cap, inS32 raw = true → (make raw mode cap).wf = true) : i.wf = true := by
  unfold positionOperands at taken
  split at taken
  · split at taken
    · rename_i operand _ _
      cases taken
      exact fits _ _ _ (inS32_of_s32Operand operand)
    · cases taken
  · cases taken

theorem eq_of_noOperand {i j : Instr} {args : List AsmToken} (taken : noOperand j args = some i) : i = j := by
  rw [noOperand_eq] at taken
  exact (Option.some.inj (Option.ite_none_right_eq_some.1 taken).2).symm

end Sys2Proof.Machine

namespace Sys2Proof

open Machine

/-- Settles O9: each mnemonic has its form, and each form its limits. -/
theorem assemblerTakesWhatFits : Obligations.AssemblerTakesWhatFits := by
  refine ⟨fun args => ⟨?_, ?_, ?_⟩, fun v => ⟨?_, ?_, ?_, ?_⟩, fun slot mask => ?_,
    fun raw cap letters mode names => ⟨?_, ?_⟩, fun items elems fields => ⟨?_, ?_⟩⟩
  · exact (assembleTokens_form args 2).trans (noOperand_eq _ args)
  · exact (assembleTokens_form args 3).trans (noOperand_eq _ args)
  · exact (assembleTokens_form args 4).trans (noOperand_eq _ args)
  · exact (assembleTokens_form _ 0).trans (symbolOperand_num v)
  · exact (assembleTokens_form _ 1).trans (signedOperand_num _ v)
  · exact (assembleTokens_form _ 8).trans (signedOperand_num _ v)
  · exact (assembleTokens_form _ 9).trans (signedOperand_num _ v)
  · exact (assembleTokens_form _ 5).trans (digitOperands_num slot mask)
  · exact (assembleTokens_form _ 10).trans (positionOperands_num _ raw cap (modeOperand_of_name names))
  · exact (assembleTokens_form _ 11).trans (positionOperands_num _ raw cap (modeOperand_of_name names))
  · rw [assembleTokens_showText, textOperand_listTokens, Option.bind_some, elementsOperand_map_eq _ fields]
  · refine (assembleTokens_form _ 7).trans ?_
    show ((listOperand (listTokens items)).bind elementsOperand).map _ = _
    rw [listOperand_listTokens, Option.bind_some, elementsOperand_map_eq _ fields]

/-- Settles O10: each form checks its signed operand, and every other operand is as wide as its field. -/
theorem assembledCommandsFit : Obligations.AssembledCommandsFit := by
  intro tokens i taken
  unfold assembleTokens at taken
  split at taken
  · split at taken
    · exact wf_of_symbolOperand taken
    · exact wf_of_signedOperand taken fun _ h => h
    · rw [eq_of_noOperand taken]; rfl
    · rw [eq_of_noOperand taken]; rfl
    · rw [eq_of_noOperand taken]; rfl
    · exact wf_of_digitOperands taken
    · obtain ⟨elems, -, rfl⟩ := Option.map_eq_some_iff.1 taken
      rfl
    · obtain ⟨elems, -, rfl⟩ := Option.map_eq_some_iff.1 taken
      rfl
    · exact wf_of_signedOperand taken fun _ h => h
    · exact wf_of_signedOperand taken fun _ h => h
    · exact wf_of_positionOperands taken fun _ _ _ h => h
    · exact wf_of_positionOperands taken fun _ _ _ h => h
    · cases taken
  · cases taken

end Sys2Proof
end

section
/-! SUPPORT. The fixed facts: five bus addresses, one word of each command, the response word, and power-up. -/

namespace Sys2Proof

open Machine

/-- Settles O3: R8 keeps CTRL_ADDR apart from the digits, and the digits do not wrap. -/
theorem busRegistersAreDistinct : Obligations.BusRegistersAreDistinct := by
  intro cfg
  have digits : busAddrs cfg = cfg.ctrlAddr :: (List.range 4).map (digitAddr cfg) := rfl
  refine ⟨?_, rfl⟩
  rw [digits, List.nodup_cons]
  constructor
  · intro ctrl
    obtain ⟨slot, inRange, same⟩ := List.mem_map.1 ctrl
    exact digitAddr_ne_ctrlAddr cfg (Nat.le_of_lt_succ (List.mem_range.1 inRange)) same
  · exact digitAddrs_nodup cfg

/-- Settles O8: the decoder runs on twelve words. -/
theorem sampleWordsDecode : Obligations.SampleWordsDecode := by
  unfold Obligations.SampleWordsDecode
  decide

/-- Settles O12: VALUE and STATUS are appended. -/
theorem responseWordFields : Obligations.ResponseWordFields :=
  ⟨fun st v => ⟨responseStatus_responseWord st v, responseValue_responseWord st v⟩, rfl, rfl, rfl, rfl, rfl⟩

/-- Settles O50: each field of the state at power-up. -/
theorem powerUpState : Obligations.PowerUpState :=
  ⟨rfl, rfl, rfl, fun _ => rfl, rfl, rfl, rfl⟩

end Sys2Proof
end
